-- ==== Sys2Proof/Word.lean ====
section
/-! DEFINITION. The words and operand values that cross the ports of FEC-CORE (spec/30_encoding.md R61, R62, R66; spec/00_scope.md R8). -/

namespace Sys2Proof

/-- The command word on the CMD port: RSV in bits 7..4, OP in bits 3..0 (R61). -/
abbrev CmdWord := BitVec 8

/-- The STATUS field as it stands in a response (R62, R170). -/
abbrev StatusCode := BitVec 3

/-- A BitVector of R8: position 1 is the head of the list, `true` is the bit 1 (R40). -/
abbrev BitVector := List Bool

/-- One unit of what the OPERANDS port carries: a number whole in its own field, or one bit of a
BITS field (R41, R66). DESIGN CHOICE, log 7: the layer above the open parameter PACKING. -/
inductive Token where
  | value (n : Nat)
  | bit (b : Bool)
deriving DecidableEq, Repr

/-- The types an operand field can have (R62, R63). -/
inductive FieldType where
  | len
  | bits
  | prob
deriving DecidableEq, Repr

/-- One transaction as the host offers it: the command word, then the operand fields (R60). -/
structure Offer where
  word : CmdWord
  operands : List Token
deriving DecidableEq, Repr

end Sys2Proof
end

