-- ==== Sys2Proof/Syntax.lean ====
section
/-! DEFINITION. The seven commands of FEC-CORE with their operand fields (spec/30_encoding.md R63, R69; spec/opcode_table.json). -/

namespace Sys2Proof

/-- One constructor per row of the opcode table; the arguments are the operand fields of R63 in
their order. -/
inductive Instr where
  /-- HPARAM: M. -/
  | hparam (m : Nat)
  /-- HENC: DATA. -/
  | henc (data : BitVector)
  /-- HSYN: RECEIVED. -/
  | hsyn (received : BitVector)
  /-- HDEC: RECEIVED. -/
  | hdec (received : BitVector)
  /-- BSC: BITS_IN, BER. -/
  | bsc (bitsIn : BitVector) (ber : Nat)
  /-- GE: BITS_IN, P_GB, P_BG, P_G, P_B. -/
  | ge (bitsIn : BitVector) (pGB pBG pG pB : Nat)
  /-- DIFF: A, B. -/
  | diff (a b : BitVector)
deriving DecidableEq, Repr

end Sys2Proof
end

