-- ==== Sys2Proof/Decode.lean ====
section
/-! DEFINITION. The command decoder, total on any command word and any operand stream and rejecting by name, and the encoder, both from spec/30_encoding.md R61, R63, R66, R69 to R71. -/

namespace Sys2Proof

/-- Why a transaction selects no command. -/
inductive DecodeError where
  /-- RSV is not 0000 or OP is reserved (R70, R71): the block answers InvalidCommand. -/
  | invalidCommand
  /-- The operand fields are not those R63 lists for the command (log 8). -/
  | malformedOperands
deriving DecidableEq, Repr

/-- RSV, bits 7..4 of the command word (R61). -/
def rsvOf (w : CmdWord) : BitVec 4 :=
  w.extractLsb' 4 4

/-- OP, bits 3..0 of the command word (R61). -/
def opOf (w : CmdWord) : BitVec 4 :=
  w.extractLsb' 0 4

/-- The command word with RSV = 0000 and the given OP (R61). -/
def wordOfOp (op : BitVec 4) : CmdWord :=
  (0#4) ++ op

/-- The operand fields of the command an OP selects, in order (R63); `none` for a reserved OP (R70). -/
def fieldsOfOp (op : BitVec 4) : Option (List FieldType) :=
  match op.toNat with
  | 1 => some [.len]
  | 2 => some [.bits]
  | 3 => some [.bits]
  | 4 => some [.bits]
  | 5 => some [.bits, .prob]
  | 6 => some [.bits, .prob, .prob, .prob, .prob]
  | 7 => some [.bits, .bits]
  | _ => none

/-- The operand fields of the command a whole word selects; RSV is checked before OP is read (R69, R71). -/
def fieldsOfWord (w : CmdWord) : Option (List FieldType) :=
  if rsvOf w = 0#4 then fieldsOfOp (opOf w) else none

/-- Take a LEN or PROB field off the stream: one number (R41). -/
def readValue : List Token → Option (Nat × List Token)
  | .value n :: rest => some (n, rest)
  | _ => none

/-- Take `count` bits off the stream, in position order (R66). -/
def readBitRun : Nat → List Token → Option (BitVector × List Token)
  | 0, rest => some ([], rest)
  | count + 1, .bit b :: rest =>
    match readBitRun count rest with
    | some (v, after) => some (b :: v, after)
    | none => none
  | _ + 1, _ => none

/-- Take a BITS field off the stream: a length, then exactly that many bits (R66). -/
def readBits (stream : List Token) : Option (BitVector × List Token) :=
  match readValue stream with
  | some (len, rest) => readBitRun len rest
  | none => none

/-- The operand fields must end where the last one does: no padding, no terminator (R66). -/
def readEnd (i : Instr) (stream : List Token) : Option Instr :=
  if stream.isEmpty then some i else none

/-- Assemble the command OP selects from its operand fields (R63, R69). -/
def assemble (op : Nat) (stream : List Token) : Option Instr :=
  match op with
  | 1 => do
    let (m, rest) ← readValue stream
    readEnd (.hparam m) rest
  | 2 => do
    let (data, rest) ← readBits stream
    readEnd (.henc data) rest
  | 3 => do
    let (received, rest) ← readBits stream
    readEnd (.hsyn received) rest
  | 4 => do
    let (received, rest) ← readBits stream
    readEnd (.hdec received) rest
  | 5 => do
    let (bitsIn, rest) ← readBits stream
    let (ber, rest) ← readValue rest
    readEnd (.bsc bitsIn ber) rest
  | 6 => do
    let (bitsIn, rest) ← readBits stream
    let (pGB, rest) ← readValue rest
    let (pBG, rest) ← readValue rest
    let (pG, rest) ← readValue rest
    let (pB, rest) ← readValue rest
    readEnd (.ge bitsIn pGB pBG pG pB) rest
  | 7 => do
    let (a, rest) ← readBits stream
    let (b, rest) ← readBits rest
    readEnd (.diff a b) rest
  | _ => none

/-- Decode one transaction. A word that selects no command is rejected before any operand field is
read (R70, R71). -/
def decode (o : Offer) : Except DecodeError Instr :=
  match fieldsOfWord o.word with
  | none => .error .invalidCommand
  | some _ =>
    match assemble (opOf o.word).toNat o.operands with
    | some i => .ok i
    | none => .error .malformedOperands

/-- The LEN values standing in the given fields of an operand stream, read off in order as far as each
field can be found: a number in a LEN field, and the length part of a BITS field whether or not its
bits follow (R67). A field that does not start with a number, or a BITS field that is cut short, ends
the reading (log 8). -/
def lengthsIn : List FieldType → List Token → List Nat
  | .len :: fields, .value n :: rest => n :: lengthsIn fields rest
  | .prob :: fields, .value _ :: rest => lengthsIn fields rest
  | .bits :: fields, .value len :: rest =>
    len :: match readBitRun len rest with
      | some (_, after) => lengthsIn fields after
      | none => []
  | _, _ => []

/-- The LEN values a transaction offers in the fields of its command (R67); none for a reserved word,
whose operands are not read (R70). -/
def offeredLengths (o : Offer) : List Nat :=
  match fieldsOfWord o.word with
  | some fields => lengthsIn fields o.operands
  | none => []

/-- An operand field that is all zeros: the number 0, or the BitVector of length 0. -/
def zeroField : FieldType → List Token
  | .len => [.value 0]
  | .bits => [.value 0]
  | .prob => [.value 0]

/-- The operand fields of a word's command, every one all zeros; none for a reserved word. -/
def zeroOperands (w : CmdWord) : List Token :=
  match fieldsOfWord w with
  | some fields => fields.flatMap zeroField
  | none => []

/-- The transaction of a command word followed by operand fields of zeros. -/
def zeroOffer (w : CmdWord) : Offer where
  word := w
  operands := zeroOperands w

/-- The instruction the decoder reads from a row of spec/opcode_table.json: a row is the 8-bit
command word, and the operand fields above it are zeros. -/
def decodeTableWord (nbits w : Nat) : Option Instr :=
  if nbits = 8 ∧ w < 2 ^ 8 then
    match decode (zeroOffer (BitVec.ofNat 8 w)) with
    | .ok i => some i
    | .error _ => none
  else none

/-- The OP of a command (R69). -/
def Instr.opcode : Instr → BitVec 4
  | .hparam .. => 0b0001#4
  | .henc .. => 0b0010#4
  | .hsyn .. => 0b0011#4
  | .hdec .. => 0b0100#4
  | .bsc .. => 0b0101#4
  | .ge .. => 0b0110#4
  | .diff .. => 0b0111#4

/-- A BITS field on the stream: the length, then the bits in position order (R66). -/
def writeBits (v : BitVector) : List Token :=
  .value v.length :: v.map .bit

/-- The operand fields of a command on the stream (R63). -/
def Instr.operands : Instr → List Token
  | .hparam m => [.value m]
  | .henc data => writeBits data
  | .hsyn received => writeBits received
  | .hdec received => writeBits received
  | .bsc bitsIn ber => writeBits bitsIn ++ [.value ber]
  | .ge bitsIn pGB pBG pG pB =>
    writeBits bitsIn ++ [.value pGB, .value pBG, .value pG, .value pB]
  | .diff a b => writeBits a ++ writeBits b

/-- The transaction that carries a command (R60). -/
def encode (i : Instr) : Offer where
  word := wordOfOp i.opcode
  operands := i.operands

end Sys2Proof
end

