-- ==== Sys2Proof/Config.lean ====
section
/-! DEFINITION. What one build of FEC-CORE fixes: the parameters the spec leaves OPEN (spec/00_scope.md R5, R6). -/

namespace Sys2Proof

/-- The two open parameters that rules depend on. They are data, so every claim over all states
is a claim over all parameters. -/
structure Config where
  /-- `N_MAX`, the largest BitVector length; `none` is the value "unbounded" (R5). -/
  nMax : Option Nat
  /-- `PROB_W`, the fraction bits of a probability and the width of a draw (R6). -/
  probW : Nat
deriving DecidableEq, Repr

/-- R5 and R6: a finite `N_MAX` is at least 3, and `PROB_W` is at least 1. -/
def Config.legal (c : Config) : Bool :=
  (match c.nMax with
    | none => true
    | some bound => 3 ≤ bound) && 1 ≤ c.probW

/-- The parameters of the reset state. DESIGN CHOICE, log 2: `N_MAX` unbounded, under which the
block agrees with its source on every input (R5), and the `PROB_W` of the spec's test vectors (R6). -/
def Config.standard : Config where
  nMax := none
  probW := 8

end Sys2Proof
end

