-- ==== Sys2Proof/Machine/Arith.lean ====
section
/-! DEFINITION. The integer and BitVector primitives of the spec's pseudocode (spec/00_scope.md R8 to R13). -/

namespace Sys2Proof.Machine

/-- `ispow2(j)`: j = 2^i for some natural i; 0 is none (R10). -/
def ispow2 (j : Nat) : Bool :=
  j == 2 ^ Nat.log2 j

/-- `bit(j, i) = (j div 2^i) mod 2`, as a bit (R11). -/
def bitOf (j i : Nat) : Bool :=
  j / 2 ^ i % 2 == 1

/-- `bitlen(n)`: 0 for 0, else the i with 2^(i-1) ≤ n < 2^i (R13). -/
def bitlen (n : Nat) : Nat :=
  if n = 0 then 0 else Nat.log2 n + 1

/-- `popcount(s)`: the number of 1 bits of s (R13). -/
def popcount (s : Nat) : Nat :=
  (List.range (bitlen s)).countP (bitOf s)

/-- The positions 1..n in ascending order (R8). -/
def positions (n : Nat) : List Nat :=
  List.range' 1 n

/-- `v[j]`, 1-based. No rule reads outside 1..len(v) (R8); what stands there is never used. -/
def bitAt (v : BitVector) (j : Nat) : Bool :=
  v.getD (j - 1) false

/-- `v[j] <- b` for a position j in 1..len(v) (R9). -/
def setAt (v : BitVector) (j : Nat) (b : Bool) : BitVector :=
  v.set (j - 1) b

/-- `new(n)`: n bits, all 0 (R9). -/
def newVector (n : Nat) : BitVector :=
  List.replicate n false

/-- `XOR{ ... }` over a listed set; 0 when it is empty (R9). -/
def xorAll (bits : List Bool) : Bool :=
  bits.foldr xor false

/-- The absolute difference of two naturals (R12). -/
def absDiff (x y : Nat) : Nat :=
  if x ≥ y then x - y else y - x

end Sys2Proof.Machine
end

