-- ==== Sys2Proof/Machine/Operands.lean ====
section
/-! DEFINITION. The field types of spec/30_encoding.md R62: their widths, which values they can hold, and the two operand checks every command shares (R65, R67). -/

namespace Sys2Proof.Machine

/-- `LEN_W` for a finite `N_MAX`: the least w with 2^w > N_MAX, which is bitlen(N_MAX) (R7,
R13; log 19). -/
def lenWidth (bound : Nat) : Nat :=
  bitlen bound

/-- `R_MAX` for a finite `N_MAX` (R7). -/
def rMax (bound : Nat) : Nat :=
  bitlen bound

/-- The width of an RCNT field for a finite `N_MAX` (R62). -/
def rcntWidth (bound : Nat) : Nat :=
  bitlen (rMax bound)

/-- The width of a PROB field (R7, R62). -/
def probWidth (c : Config) : Nat :=
  c.probW + 1

/-- A LEN or CNT field can hold x (R62); with `N_MAX` unbounded any natural. -/
def fitsLen (c : Config) (x : Nat) : Bool :=
  match c.nMax with
  | none => true
  | some bound => x < 2 ^ lenWidth bound

/-- A BITS field can hold v: its length part is a LEN value (R62, R66). -/
def fitsBits (c : Config) (v : BitVector) : Bool :=
  fitsLen c v.length

/-- A PROB field can hold P (R62, R65). -/
def fitsProb (c : Config) (p : Nat) : Bool :=
  p < 2 ^ probWidth c

/-- An RCNT field can hold x (R62). -/
def fitsRcnt (c : Config) (x : Nat) : Bool :=
  match c.nMax with
  | none => true
  | some bound => x < 2 ^ rcntWidth bound

/-- A SYNV field can hold x (R62). -/
def fitsSynv (c : Config) (x : Nat) : Bool :=
  match c.nMax with
  | none => true
  | some bound => x < 2 ^ rMax bound

/-- A length is greater than `N_MAX` (R67); never with `N_MAX` unbounded. -/
def overCapacity (c : Config) (n : Nat) : Bool :=
  match c.nMax with
  | none => false
  | some bound => bound < n

/-- P stands for a probability greater than 1 (R65, R131). -/
def illegalProb (c : Config) (p : Nat) : Bool :=
  2 ^ c.probW < p

end Sys2Proof.Machine
end

