-- ==== Sys2Proof/Machine/State.lean ====
section
/-! DEFINITION. The state of one FEC-CORE block as plain data (spec/10_state.md R20 to R33; the five ports of spec/20_memory.md R46), and the state after reset (R31, R190). -/

namespace Sys2Proof.Machine

/-- The Gilbert-Elliott ChannelState (R29). -/
inductive ChannelState where
  | good
  | bad
deriving DecidableEq, Repr

/-- Which decision of a position a GE command takes next: R147 has a flip decision and then a
transition decision. BSC has flip decisions only. The name is the model's own (log 9). -/
inductive Phase where
  | flip
  | transition
deriving DecidableEq, Repr

/-- `PAR`, the code parameters (m, r, n) of a command (R21, R80). -/
structure CodeParams where
  m : Nat
  r : Nat
  n : Nat
deriving DecidableEq, Repr

/-- The working state of one command (R21): created when the command starts, discarded when its
response is given. -/
structure Work where
  /-- `PAR`, the code parameters. -/
  par : CodeParams
  /-- `CW`, the working BitVector; for BSC and GE the `out` of their pseudocode. -/
  cw : BitVector
  /-- `IDX`, the position being processed. -/
  idx : Nat
  /-- `SYN`, the check bits, check_0 first. -/
  syn : List Bool
  /-- `S`, the ChannelState. -/
  s : ChannelState
  /-- The decision due at position `IDX` (log 9). -/
  phase : Phase
  /-- `FLIPPED`, the count of inverted bits. -/
  flipped : Nat
  /-- `CNT`, the counter of DIFF. -/
  cnt : Nat
deriving DecidableEq, Repr

/-- The two commands that pull draws, with their operands as read at the start (20_memory.md R44).
Only these can still be running when a step ends, because only these can wait for a draw (R196). -/
inductive Channel where
  | bsc (bitsIn : BitVector) (ber : Nat)
  | ge (bitsIn : BitVector) (pGB pBG pG pB : Nat)
deriving DecidableEq, Repr

/-- The sequencer's condition (R22); BUSY holds the command in flight and its working state. -/
inductive Sequencer where
  | idle
  | busy (command : Channel) (work : Work)
deriving DecidableEq, Repr

/-- The status conditions (60_exceptions.md R170); there is no eighth (93 U6). -/
inductive Status where
  | ok
  | invalidParameter
  | invalidMessageLength
  | invalidCodewordLength
  | uncorrectable
  | invalidCommand
  | capacityExceeded
deriving DecidableEq, Repr

/-- The response fields; those a command has stand here in the order R63 gives them. A field that is not valid for the status, or not one of the
command's, is absent (R68, log 11). -/
structure Response where
  status : Status
  r : Option Nat
  n : Option Nat
  codeword : Option BitVector
  errpos : Option Nat
  data : Option BitVector
  failed : Option Nat
  bitsOut : Option BitVector
  flipped : Option Nat
  count : Option Nat
deriving DecidableEq, Repr

/-- What the outside world does at the ports (70_reset_and_hazards.md R192, log 3). -/
inductive Input where
  /-- The host offers a command on CMD and OPERANDS. -/
  | offer (o : Offer)
  /-- The random source has one more draw ready on RND. -/
  | draw (u : Nat)
  /-- RST is asserted (`true`) or released (`false`). -/
  | rst (level : Bool)
deriving DecidableEq, Repr

/-- Reasons the machine stops with a fault: none. Every exceptional condition of the spec is a
status in a response, after which the block goes on (60_exceptions.md R180). -/
inductive Fault where
deriving DecidableEq, Repr

/-- Reasons the machine has no move. -/
inductive Refusal where
  /-- Raised by exec for an instruction without a meaning; no instruction is left without one.
  Safe. -/
  | notModelled (mnemonic : String)
  /-- Raised by accepting a transaction whose operand fields are not those R63 lists for its
  command word and in which no LEN value above N_MAX is found: the spec has no such transaction
  (log 8). Safe: nothing follows from it. -/
  | malformedOperands
deriving DecidableEq, Repr

/-- The block and its ports. -/
structure State where
  /-- The parameters of this build (00_scope.md R5, R6). -/
  config : Config
  /-- CMD and OPERANDS: commands offered and not yet accepted, oldest first (R195). -/
  cmd : List Offer
  /-- RND: the draws the random source has ready, oldest first (20_memory.md R51). -/
  rnd : List Nat
  /-- The sequencer's condition (R22). -/
  seq : Sequencer
  /-- RESP: the responses given, oldest first (20_memory.md R52). -/
  resp : List Response
  /-- RST: asserted or not (R190). -/
  rst : Bool
  /-- What the outside does next, one event per step (log 3). -/
  inputs : List Input
deriving DecidableEq, Repr

/-- Working state as it is before a command writes it. IDX is 1 and FLIPPED 0 in every command
(R25, R134); the rest is never read before it is written (R31), so its values are a DESIGN CHOICE
that nothing can see (log 9). -/
def Work.fresh : Work where
  par := ⟨0, 0, 0⟩
  cw := []
  idx := 1
  syn := []
  s := .good
  phase := .flip
  flipped := 0
  cnt := 0

/-- A block of the given parameters right after reset (R31, R190): IDLE, nothing in flight, no
response. Nothing offered, no draw ready and nothing scheduled are the outside's side of the ports
(log 18). -/
def State.resetWith (c : Config) : State where
  config := c
  cmd := []
  rnd := []
  seq := .idle
  resp := []
  rst := false
  inputs := []

/-- The machine right after reset. -/
def State.reset : State :=
  .resetWith .standard

end Sys2Proof.Machine
end

