-- ==== Sys2Proof/Machine/Flags.lean ====
section
/-! DEFINITION. FEC-CORE has no flags (spec/10_state.md R26); this file holds what it reports instead: the status codes (spec/60_exceptions.md R170) and the response of each command with its valid fields (spec/30_encoding.md R63, R68). -/

namespace Sys2Proof.Machine

/-- The number of a status (R170). -/
def Status.code : Status → StatusCode
  | .ok => 0#3
  | .invalidParameter => 1#3
  | .invalidMessageLength => 2#3
  | .invalidCodewordLength => 3#3
  | .uncorrectable => 4#3
  | .invalidCommand => 5#3
  | .capacityExceeded => 6#3

/-- The status a number names; 7 is reserved (R170). -/
def Status.ofCode (code : StatusCode) : Option Status :=
  match code.toNat with
  | 0 => some .ok
  | 1 => some .invalidParameter
  | 2 => some .invalidMessageLength
  | 3 => some .invalidCodewordLength
  | 4 => some .uncorrectable
  | 5 => some .invalidCommand
  | 6 => some .capacityExceeded
  | _ => none

/-- A response with no field but STATUS: every status that is neither OK nor Uncorrectable (R68). -/
def Response.bare (status : Status) : Response where
  status := status
  r := none
  n := none
  codeword := none
  errpos := none
  data := none
  failed := none
  bitsOut := none
  flipped := none
  count := none

/-- STATUS = OK of HPARAM (R63). -/
def Response.params (r n : Nat) : Response :=
  { Response.bare .ok with r := some r, n := some n }

/-- STATUS = OK of HENC (R63). -/
def Response.encoded (codeword : BitVector) : Response :=
  { Response.bare .ok with codeword := some codeword }

/-- STATUS = OK of HSYN (R63). -/
def Response.syndrome (errpos failed : Nat) : Response :=
  { Response.bare .ok with errpos := some errpos, failed := some failed }

/-- STATUS = OK of HDEC: FAILED is 0 (R63, R68). -/
def Response.decoded (data : BitVector) : Response :=
  { Response.bare .ok with data := some data, failed := some 0 }

/-- STATUS = Uncorrectable: only FAILED is valid besides (R68, R116). -/
def Response.uncorrectable (failed : Nat) : Response :=
  { Response.bare .uncorrectable with failed := some failed }

/-- STATUS = OK of BSC and GE (R63). -/
def Response.transmitted (bitsOut : BitVector) (flipped : Nat) : Response :=
  { Response.bare .ok with bitsOut := some bitsOut, flipped := some flipped }

/-- STATUS = OK of DIFF (R63). -/
def Response.counted (count : Nat) : Response :=
  { Response.bare .ok with count := some count }

/-- A number's own field on RESP, if it is valid. -/
def numberField : Option Nat → List Token
  | some x => [.value x]
  | none => []

/-- A BITS field on RESP, if it is valid: the length, then the bits (R66). -/
def bitsField : Option BitVector → List Token
  | some v => writeBits v
  | none => []

/-- The response as it leaves on RESP: STATUS first (R60, R170), then the valid fields in the order
of R63, each as an operand field of its type would stand on OPERANDS (log 7). -/
def Response.transfer (r : Response) : List Token :=
  .value r.status.code.toNat :: numberField r.r ++ numberField r.n ++ bitsField r.codeword
    ++ numberField r.errpos ++ bitsField r.data ++ numberField r.failed ++ bitsField r.bitsOut
    ++ numberField r.flipped ++ numberField r.count

end Sys2Proof.Machine
end

