-- ==== Sys2Proof/Machine/Ops.lean ====
section
/-! DEFINITION. The named operations on a block's state: giving a response, which is also how a status is delivered (spec/60_exceptions.md R180), reset (spec/70_reset_and_hazards.md R190), and what an event at the ports does (R192). -/

namespace Sys2Proof.Machine

/-- Give a response: it leaves on RESP and the sequencer is IDLE (10_state.md R22, R64). The
command's working state is discarded with BUSY (R21). -/
def State.respond (s : State) (r : Response) : State :=
  { s with resp := s.resp ++ [r], seq := .idle }

/-- Deliver an error status, the block's whole trap mechanism: nothing is saved, no mode changes,
nothing is vectored, no draw is consumed; the response carries STATUS alone (R180). There is no
return from it to model: the next command simply runs. -/
def State.raise (s : State) (status : Status) : State :=
  s.respond (.bare status)

/-- A step while RST is asserted: no command is accepted and no response given; a command in
flight is abandoned; draws pulled stay pulled and the random source is untouched (R190). What
waits at the interface and what was already given are outside the block (log 4). -/
def State.abandon (s : State) : State :=
  { s with seq := .idle }

/-- What one event does at the ports (R192). -/
def State.receive (s : State) : Input → State
  | .offer o => { s with cmd := s.cmd ++ [o] }
  | .draw u => { s with rnd := s.rnd ++ [u] }
  | .rst level => { s with rst := level }

/-- The event that lands at the end of a step, if one is scheduled (log 3). -/
def State.arrive (s : State) : State :=
  match s.inputs with
  | [] => s
  | event :: later => { s with inputs := later }.receive event

end Sys2Proof.Machine
end

