-- ==== Sys2Proof/Machine/Channels.lean ====
section
/-! DEFINITION. The draw, the Bernoulli decision and the channel commands BSC and GE (spec/43_channel_bsc.md, 44_channel_ge.md), with their waiting for draws (spec/70_reset_and_hazards.md R196). -/

namespace Sys2Proof.Machine

/-- The Bernoulli decision on a draw u: 1 if u < P (R132). -/
def bern (p u : Nat) : Bool :=
  u < p

/-- BITS_IN of a channel command. -/
def Channel.bitsIn : Channel → BitVector
  | .bsc bitsIn _ => bitsIn
  | .ge bitsIn _ _ _ _ => bitsIn

/-- The PROB operands of a channel command. -/
def Channel.probs : Channel → List Nat
  | .bsc _ ber => [ber]
  | .ge _ pGB pBG pG pB => [pGB, pBG, pG, pB]

/-- The status that ends a channel command before it pulls a draw, if any: capacity first, then
every PROB operand (R136, R153, R178). -/
def channelError (cfg : Config) (c : Channel) : Option Status :=
  if overCapacity cfg c.bitsIn.length then some .capacityExceeded
  else if c.probs.any (illegalProb cfg) then some .invalidParameter
  else none

/-- Working state when the loop begins: out = new(n), FLIPPED = 0, IDX = 1, S = Good (R134, R146,
R148). -/
def Channel.start (c : Channel) : Work :=
  { Work.fresh with cw := newVector c.bitsIn.length }

/-- The loop over positions 1..n is over. -/
def Channel.finished (c : Channel) (w : Work) : Bool :=
  c.bitsIn.length < w.idx

/-- `out[j] <- bits[j] xor d; flipped <- flipped + d` at position IDX (R134, R146). -/
def applyFlip (bits : BitVector) (d : Bool) (w : Work) : Work :=
  { w with cw := setAt w.cw w.idx (bitAt bits w.idx ^^ d), flipped := w.flipped + d.toNat }

/-- The flip probability of the current state: P_G in Good, P_B in Bad (R147). -/
def flipProb (pG pB : Nat) : ChannelState → Nat
  | .good => pG
  | .bad => pB

/-- The probability of leaving the current state: P_GB in Good, P_BG in Bad (R147). -/
def leaveProb (pGB pBG : Nat) : ChannelState → Nat
  | .good => pGB
  | .bad => pBG

/-- The other state. -/
def ChannelState.other : ChannelState → ChannelState
  | .good => .bad
  | .bad => .good

/-- What a command does with one draw: exactly one decision (R133). For BSC the flip decision of
position IDX (R134, R135); for GE the flip decision and then the transition decision of position
IDX (R147, R150). -/
def Channel.onDraw (c : Channel) (u : Nat) (w : Work) : Work :=
  match c with
  | .bsc bitsIn ber =>
    let flippedOrNot := applyFlip bitsIn (bern ber u) w
    { flippedOrNot with idx := w.idx + 1 }
  | .ge bitsIn pGB pBG pG pB =>
    match w.phase with
    | .flip =>
      let flippedOrNot := applyFlip bitsIn (bern (flipProb pG pB w.s) u) w
      { flippedOrNot with phase := .transition }
    | .transition =>
      let next := if bern (leaveProb pGB pBG w.s) u then w.s.other else w.s
      { w with s := next, phase := .flip, idx := w.idx + 1 }

/-- Pull draws, one for each decision, until the loop is over or none is ready: the working state
then, and the draws not pulled (R133, R196; 20_memory.md R51). -/
def Channel.pull (c : Channel) (w : Work) : (ready : List Nat) → Work × List Nat
  | [] => (w, [])
  | u :: later => if c.finished w then (w, u :: later) else c.pull (c.onDraw u w) later

/-- Run a channel command on from the given working state: to its response when the draws that are
ready suffice, else it stays BUSY and waits for the next draw (R134, R146, R196; log 5). -/
def State.transmit (s : State) (c : Channel) (w : Work) : State :=
  let (after, unpulled) := c.pull w s.rnd
  let pulled := { s with rnd := unpulled }
  if c.finished after then pulled.respond (.transmitted after.cw after.flipped)
  else { pulled with seq := .busy c after }

/-- Check the operands of a channel command, then run it from the start. -/
def State.startChannel (s : State) (c : Channel) : State :=
  match channelError s.config c with
  | some status => s.raise status
  | none => s.transmit c c.start

/-- BSC: independent bit flips (R134). -/
def execBsc (bitsIn : BitVector) (ber : Nat) (s : State) : Host.Outcome State Fault Refusal :=
  .next (s.startChannel (.bsc bitsIn ber))

/-- GE: state-dependent bit flips (R146). -/
def execGe (bitsIn : BitVector) (pGB pBG pG pB : Nat) (s : State) :
    Host.Outcome State Fault Refusal :=
  .next (s.startChannel (.ge bitsIn pGB pBG pG pB))

end Sys2Proof.Machine
end

