-- ==== Sys2Proof/Machine/Difference.lean ====
section
/-! DEFINITION. The difference counter, command DIFF (spec/45_difference_counter.md). -/

namespace Sys2Proof.Machine

/-- The positions of the common prefix at which two BitVectors differ (R160, R161). -/
def prefixDifferences (a b : BitVector) : Nat :=
  (positions (min a.length b.length)).countP fun j => bitAt a j != bitAt b j

/-- `countDifferences(a, b)` (R160, R161). -/
def countDifferences (a b : BitVector) : Nat :=
  prefixDifferences a b + absDiff a.length b.length

/-- DIFF's working state when the count is complete, or the status that ends it (R160). -/
def diffWork (c : Config) (a b : BitVector) : Except Status Work :=
  if overCapacity c a.length || overCapacity c b.length then .error .capacityExceeded
  else .ok { Work.fresh with cnt := countDifferences a b }

/-- DIFF's response (R160). -/
def diffResponse (c : Config) (a b : BitVector) : Response :=
  match diffWork c a b with
  | .error status => .bare status
  | .ok w => .counted w.cnt

/-- DIFF: count the differences of two BitVectors (R160). -/
def execDiff (a b : BitVector) (s : State) : Host.Outcome State Fault Refusal :=
  .next (s.respond (diffResponse s.config a b))

end Sys2Proof.Machine
end

