-- ==== Sys2Proof/Machine/Hamming.lean ====
section
/-! DEFINITION. The Hamming commands HPARAM, HENC, HSYN and HDEC (spec/40_hamming_params.md, 41_hamming_encode.md, 42_hamming_syndrome_decode.md). -/

namespace Sys2Proof.Machine

/-- The search of R81 from a given r: `while 2^r < m + r + 1: r <- r + 1`. The fuel m given below
is never used up before the test fails, since 2^(m+1) ≥ m + (m+1) + 1. -/
def searchR (m : Nat) : (fuel r : Nat) → Nat
  | 0, r => r
  | fuel + 1, r => if 2 ^ r < m + r + 1 then searchR m fuel (r + 1) else r

/-- `deriveParameters(m)`: PAR, or InvalidMessageLength when m < 1 (R80, R81). -/
def deriveParameters (m : Nat) : Except Status CodeParams :=
  if m < 1 then .error .invalidMessageLength
  else
    let r := searchR m m 1
    .ok ⟨m, r, m + r⟩

/-- A valid codeword length, in the closed form of R88 (log 19). -/
def validN (n : Nat) : Bool :=
  3 ≤ n && !ispow2 n

/-- PAR of a received word of valid length n: r = bitlen(n), m = n - r (R88). -/
def paramsOfLength (n : Nat) : CodeParams :=
  ⟨n - bitlen n, bitlen n, n⟩

/-- The coverage set of parity index i, `(j & p) ≠ 0` with p = 2^i (R86). -/
def cov (n i : Nat) : List Nat :=
  (positions n).filter fun j => j &&& 2 ^ i != 0

/-- The parity-check matrix: H[i][j] = bit(j, i) (R89). -/
def parityCheckMatrix (i j : Nat) : Bool :=
  bitOf j i

/-- The parity positions of 1..n (R84). -/
def parityPositions (n : Nat) : List Nat :=
  (positions n).filter fun j => ispow2 j

/-- The data positions of 1..n in ascending order, d_1 < d_2 < ... (R85). -/
def dataPositions (n : Nat) : List Nat :=
  (positions n).filter fun j => !ispow2 j

/-- Placement, from position j on: skip powers of two, put successive message bits elsewhere
(R101). -/
def placeFrom (j : Nat) : (count : Nat) → (data : BitVector) → BitVector
  | 0, _ => []
  | count + 1, data =>
    if ispow2 j then false :: placeFrom (j + 1) count data
    else data.headD false :: placeFrom (j + 1) count data.tail

/-- The codeword after placement (R101). -/
def place (n : Nat) (data : BitVector) : BitVector :=
  placeFrom 1 n data

/-- The parity bit of index i: the xor over cov(i) without 2^i itself (R102). -/
def parityBit (c : BitVector) (i : Nat) : Bool :=
  xorAll (((cov c.length i).filter fun j => j != 2 ^ i).map (bitAt c))

/-- Set the parity bits of indices 0..r-1, one after the other (R100, R102). -/
def setParities (c : BitVector) (r : Nat) : BitVector :=
  (List.range r).foldl (fun word i => setAt word (2 ^ i) (parityBit word i)) c

/-- check_i of a received word: the xor over all of cov(i) (R110). -/
def check (v : BitVector) (i : Nat) : Bool :=
  xorAll ((cov v.length i).map (bitAt v))

/-- The syndrome, (check_0, ..., check_(r-1)) (R110). -/
def syndrome (v : BitVector) (r : Nat) : List Bool :=
  (List.range r).map (check v)

/-- errorPosition: the sum of 2^i over the i with check_i = 1 (R111), summed from the low end. -/
def errorPosition : (syn : List Bool) → Nat
  | [] => 0
  | check :: rest => check.toNat + 2 * errorPosition rest

/-- Invert the bit at position j (R115). -/
def flipAt (v : BitVector) (j : Nat) : BitVector :=
  setAt v j (!bitAt v j)

/-- Extraction: the bits at the data positions, in order (R117). -/
def extract (w : BitVector) : BitVector :=
  (dataPositions w.length).map (bitAt w)

/-- HPARAM's working state, or the status that ends it (R82). -/
def hparamWork (c : Config) (m : Nat) : Except Status Work :=
  if overCapacity c m then .error .capacityExceeded
  else
    match deriveParameters m with
    | .error status => .error status
    | .ok par =>
      if overCapacity c par.n then .error .capacityExceeded
      else .ok { Work.fresh with par := par }

/-- HPARAM's response (R82). -/
def hparamResponse (c : Config) (m : Nat) : Response :=
  match hparamWork c m with
  | .error status => .bare status
  | .ok w => .params w.par.r w.par.n

/-- HENC's working state when the codeword is built, or the status that ends it (R100). -/
def hencWork (c : Config) (data : BitVector) : Except Status Work :=
  match hparamWork c data.length with
  | .error status => .error status
  | .ok w => .ok { w with cw := setParities (place w.par.n data) w.par.r }

/-- HENC's response (R100). -/
def hencResponse (c : Config) (data : BitVector) : Response :=
  match hencWork c data with
  | .error status => .bare status
  | .ok w => .encoded w.cw

/-- Steps 1 to 3 of decoding, shared by HSYN and HDEC: check the length, take a private copy,
compute the checks (R113, R114, R123). -/
def syndromeWork (c : Config) (received : BitVector) : Except Status Work :=
  let n := received.length
  if overCapacity c n then .error .capacityExceeded
  else if !validN n then .error .invalidCodewordLength
  else
    let par := paramsOfLength n
    .ok { Work.fresh with par := par, cw := received, syn := syndrome received par.r }

/-- HSYN's response (R113). -/
def hsynResponse (c : Config) (received : BitVector) : Response :=
  match syndromeWork c received with
  | .error status => .bare status
  | .ok w => .syndrome (errorPosition w.syn) (popcount (errorPosition w.syn))

/-- Steps 4 to 6 of decoding: the corrected working copy, or the count of failed checks when the
error position lies beyond the word (R115, R116). -/
def correct (w : Work) : Except Nat Work :=
  let errpos := errorPosition w.syn
  if errpos = 0 then .ok w
  else if errpos ≤ w.par.n then .ok { w with cw := flipAt w.cw errpos }
  else .error (popcount errpos)

/-- HDEC's response (R114). -/
def hdecResponse (c : Config) (received : BitVector) : Response :=
  match syndromeWork c received with
  | .error status => .bare status
  | .ok w =>
    match correct w with
    | .error failed => .uncorrectable failed
    | .ok w => .decoded (extract w.cw)

/-- HPARAM: derive (r, n) from m (R82). -/
def execHparam (m : Nat) (s : State) : Host.Outcome State Fault Refusal :=
  .next (s.respond (hparamResponse s.config m))

/-- HENC: encode a message (R100). -/
def execHenc (data : BitVector) (s : State) : Host.Outcome State Fault Refusal :=
  .next (s.respond (hencResponse s.config data))

/-- HSYN: the syndrome of a received word (R113). -/
def execHsyn (received : BitVector) (s : State) : Host.Outcome State Fault Refusal :=
  .next (s.respond (hsynResponse s.config received))

/-- HDEC: decode a received word, correcting at most one bit (R114). -/
def execHdec (received : BitVector) (s : State) : Host.Outcome State Fault Refusal :=
  .next (s.respond (hdecResponse s.config received))

end Sys2Proof.Machine
end

