-- ==== Sys2Proof/Machine/Dispatch.lean ====
section
/-! DEFINITION. The meaning of each command (spec/30_encoding.md R69), one arm per constructor of Instr. -/

namespace Sys2Proof.Machine

/-- Run one accepted command to its response, or to where it waits for a draw. -/
def exec (i : Instr) (s : State) : Host.Outcome State Fault Refusal :=
  match i with
  | .hparam m => Sys2Proof.Machine.execHparam m s
  | .henc data => Sys2Proof.Machine.execHenc data s
  | .hsyn received => Sys2Proof.Machine.execHsyn received s
  | .hdec received => Sys2Proof.Machine.execHdec received s
  | .bsc bitsIn ber => Sys2Proof.Machine.execBsc bitsIn ber s
  | .ge bitsIn pGB pBG pG pB => Sys2Proof.Machine.execGe bitsIn pGB pBG pG pB s
  | .diff a b => Sys2Proof.Machine.execDiff a b s

end Sys2Proof.Machine
end

