-- ==== Sys2Proof/Machine/Sequencing.lean ====
section
/-! DEFINITION. The sequencer: accepting a command, going on with one that waits, RST (spec/10_state.md R22, spec/70_reset_and_hazards.md R190, R195, R196). -/

namespace Sys2Proof.Machine

/-- IDLE: accept the oldest command offered (R22, R47); with none offered nothing happens (R183,
log 20). A word that selects no command
gets InvalidCommand and nothing else (R70, R175). A LEN value above N_MAX is found before anything but
the word is examined (R67, R178): a command whose fields are in order examines it first itself, and
one whose fields are not ends with the same status. -/
def State.accept (s : State) : Host.Outcome State Fault Refusal :=
  match s.cmd with
  | [] => .next s
  | offer :: waiting =>
    match decode offer with
    | .ok i => exec i { s with cmd := waiting }
    | .error .invalidCommand => .next ({ s with cmd := waiting }.raise .invalidCommand)
    | .error .malformedOperands =>
      if (offeredLengths offer).any (overCapacity s.config) then
        .next ({ s with cmd := waiting }.raise .capacityExceeded)
      else .refused .malformedOperands

/-- What the block does in one step: nothing but be reset while RST is asserted (R190); go on with
the command in flight while BUSY, accepting none (R195); else accept. -/
def State.advance (s : State) : Host.Outcome State Fault Refusal :=
  if s.rst then .next s.abandon
  else
    match s.seq with
    | .busy command work => .next (s.transmit command work)
    | .idle => s.accept

/-- Put a transaction where the next step accepts from: the head of the port, with RST released
and the sequencer IDLE. -/
def State.offerNext (s : State) (o : Offer) : State :=
  { s with cmd := o :: s.cmd, seq := .idle, rst := false }

end Sys2Proof.Machine
end

