-- ==== Sys2Proof/Machine/Step.lean ====
section
/-! DEFINITION. One step of the machine: the block advances, then one scheduled event lands at its ports (spec/00_scope.md R15; log 1, log 3). -/

namespace Sys2Proof.Machine

/-- The block advances by one command (or goes on waiting, or idles), then the outside moves. -/
def step (s : State) : Host.Outcome State Fault Refusal :=
  match s.advance with
  | .next after => .next after.arrive
  | .fault reason => .fault reason
  | .refused reason => .refused reason

/-- `s` with the command of a row of spec/opcode_table.json, its operand fields zeros, offered
first: the next step accepts exactly it (log 13). -/
def State.withFetchWord (s : State) (_nbits w : Nat) : State :=
  s.offerNext (zeroOffer (BitVec.ofNat 8 w))

end Sys2Proof.Machine
end

