-- ==== Sys2Proof/WellFormed.lean ====
section
/-! DEFINITION. Which commands the ports of a given build can carry: every operand value fits its field (spec/30_encoding.md R62). -/

namespace Sys2Proof

/-- Every operand fits the physical width of its field. The meanings do not rest on it: a value an
interface presents beyond its field's width gets the status R65 and R67 give it (log 14). -/
def Instr.wellFormed (c : Config) : Instr → Bool
  | .hparam m => Machine.fitsLen c m
  | .henc data => Machine.fitsBits c data
  | .hsyn received => Machine.fitsBits c received
  | .hdec received => Machine.fitsBits c received
  | .bsc bitsIn ber => Machine.fitsBits c bitsIn && Machine.fitsProb c ber
  | .ge bitsIn pGB pBG pG pB =>
    Machine.fitsBits c bitsIn && Machine.fitsProb c pGB && Machine.fitsProb c pBG
      && Machine.fitsProb c pG && Machine.fitsProb c pB
  | .diff a b => Machine.fitsBits c a && Machine.fitsBits c b

end Sys2Proof
end

