-- ==== Sys2Proof/Safety.lean ====
section
/-! DEFINITION. The terms claims are stated in: codewords (spec/40_hamming_params.md R90), valid and fitting responses (spec/30_encoding.md R62, R68), which statuses a command can give (spec/60_exceptions.md R177), draws needed (spec/20_memory.md R51), and the invariant of a block. -/

namespace Sys2Proof.Machine

/-- A codeword: a word of valid length that passes every one of its checks (R90). -/
def isCodeword (v : BitVector) : Bool :=
  validN v.length && (List.range (bitlen v.length)).all fun i => !check v i

/-- e is the number whose binary digits are the checks of v (R111): e < 2^r, and bit i of e is
check_i. -/
def spellsChecks (e : Nat) (v : BitVector) : Bool :=
  e < 2 ^ bitlen v.length && (List.range (bitlen v.length)).all fun i => bitOf e i == check v i

/-- The number of checks of v that are 1 (R112). -/
def failedChecks (v : BitVector) : Nat :=
  (List.range (bitlen v.length)).countP (check v)

/-- r is the least integer with 2^r ≥ m + r + 1 (R80). -/
def leastParityCount (m r : Nat) : Bool :=
  m + r + 1 ≤ 2 ^ r && (List.range r).all fun smaller => 2 ^ smaller < m + smaller + 1

/-- The flip decisions of a GE command, one for each pair of a flip draw and a transition draw,
from a given state on (R147, R150): in Good the flip draw is held against P_G and the transition
draw against P_GB, in Bad against P_B and P_BG. -/
def geDecisions (pGB pBG pG pB : Nat) : ChannelState → List (Nat × Nat) → List Bool
  | _, [] => []
  | .good, (flipDraw, transitionDraw) :: later =>
    decide (flipDraw < pG)
      :: geDecisions pGB pBG pG pB (if transitionDraw < pGB then .bad else .good) later
  | .bad, (flipDraw, transitionDraw) :: later =>
    decide (flipDraw < pB)
      :: geDecisions pGB pBG pG pB (if transitionDraw < pBG then .good else .bad) later

/-- Pairs of draws in the order they are pulled: 2j - 1 is the flip draw of position j, 2j its
transition draw (R150). -/
def pullOrder (pairs : List (Nat × Nat)) : List Nat :=
  pairs.flatMap fun pair => [pair.1, pair.2]

/-- The draws a command that ends with OK pulls (R51, R133). -/
def drawsOf : Instr → Nat
  | .hparam _ => 0
  | .henc _ => 0
  | .hsyn _ => 0
  | .hdec _ => 0
  | .bsc bitsIn _ => bitsIn.length
  | .ge bitsIn _ _ _ _ => 2 * bitsIn.length
  | .diff _ _ => 0

/-- The LEN values among a command's operands: M, or the length parts of its BITS fields (R67). -/
def operandLengths : Instr → List Nat
  | .hparam m => [m]
  | .henc data => [data.length]
  | .hsyn received => [received.length]
  | .hdec received => [received.length]
  | .bsc bitsIn _ => [bitsIn.length]
  | .ge bitsIn _ _ _ _ => [bitsIn.length]
  | .diff a b => [a.length, b.length]

/-- The table of R177: which statuses a command can give. -/
def possibleStatuses : Instr → List Status
  | .hparam _ => [.ok, .invalidMessageLength, .capacityExceeded]
  | .henc _ => [.ok, .invalidMessageLength, .capacityExceeded]
  | .hsyn _ => [.ok, .invalidCodewordLength, .capacityExceeded]
  | .hdec _ => [.ok, .invalidCodewordLength, .uncorrectable, .capacityExceeded]
  | .bsc _ _ => [.ok, .invalidParameter, .capacityExceeded]
  | .ge _ _ _ _ _ => [.ok, .invalidParameter, .capacityExceeded]
  | .diff _ _ => [.ok, .capacityExceeded]

/-- The response fields of R63 after STATUS, by name. -/
inductive ResponseField where
  | r
  | n
  | codeword
  | errpos
  | data
  | failed
  | bitsOut
  | flipped
  | count
deriving DecidableEq, Repr

/-- A field of a response carries a value. -/
def Response.carries (answer : Response) : ResponseField → Bool
  | .r => answer.r.isSome
  | .n => answer.n.isSome
  | .codeword => answer.codeword.isSome
  | .errpos => answer.errpos.isSome
  | .data => answer.data.isSome
  | .failed => answer.failed.isSome
  | .bitsOut => answer.bitsOut.isSome
  | .flipped => answer.flipped.isSome
  | .count => answer.count.isSome

/-- The fields of a response that carry a value. -/
def Response.fields (answer : Response) : List ResponseField :=
  [ResponseField.r, .n, .codeword, .errpos, .data, .failed, .bitsOut, .flipped, .count].filter
    answer.carries

/-- The response fields of each command after STATUS: the table of R63. -/
def responseFields : Instr → List ResponseField
  | .hparam _ => [.r, .n]
  | .henc _ => [.codeword]
  | .hsyn _ => [.errpos, .failed]
  | .hdec _ => [.data, .failed]
  | .bsc _ _ => [.bitsOut, .flipped]
  | .ge _ _ _ _ _ => [.bitsOut, .flipped]
  | .diff _ _ => [.count]

/-- R68: OK carries every response field of the command, Uncorrectable carries FAILED, any other
status carries none. -/
def Response.validFor (i : Instr) (answer : Response) : Bool :=
  match answer.status with
  | .ok => answer.fields == responseFields i
  | .uncorrectable => answer.fields == [.failed]
  | .invalidParameter => answer.fields == []
  | .invalidMessageLength => answer.fields == []
  | .invalidCodewordLength => answer.fields == []
  | .invalidCommand => answer.fields == []
  | .capacityExceeded => answer.fields == []

/-- Every field of a response fits the physical width of its type (R12, R62). -/
def Response.fits (c : Config) (r : Response) : Bool :=
  r.r.all (fitsRcnt c) && r.n.all (fitsLen c) && r.codeword.all (fitsBits c)
    && r.errpos.all (fitsSynv c) && r.failed.all (fitsRcnt c) && r.data.all (fitsBits c)
    && r.bitsOut.all (fitsBits c) && r.flipped.all (fitsLen c) && r.count.all (fitsLen c)

/-- A value the PROB_W-bit RND port can carry (R130). -/
def legalDraw (c : Config) (u : Nat) : Bool :=
  u < 2 ^ c.probW

/-- An event the ports can carry. -/
def legalInput (c : Config) : Input → Bool
  | .offer _ => true
  | .draw u => legalDraw c u
  | .rst _ => true

/-- The number of positions whose flip decision has been made. -/
def Work.decided (w : Work) : Nat :=
  match w.phase with
  | .flip => w.idx - 1
  | .transition => w.idx

/-- The draws a channel command in flight still needs: for each position from IDX on one for BSC and
two for GE, less the flip draw of position IDX where that decision has been made (R133, R150). -/
def drawsDue : Channel → Work → Nat
  | .bsc bitsIn _, w => bitsIn.length + 1 - w.idx
  | .ge bitsIn _ _ _ _, w =>
    match w.phase with
    | .flip => 2 * (bitsIn.length + 1 - w.idx)
    | .transition => 2 * (bitsIn.length + 1 - w.idx) - 1

/-- The working state of a channel command that waits for a draw: IDX is a position of the word,
CW has the word's length, and FLIPPED counts the decided positions at which CW differs from
BITS_IN (R21, R135). That the unused S of a waiting BSC is Good, and its phase the flip decision, is
the model's choice (log 9). -/
def Work.consistent (c : Channel) (w : Work) : Bool :=
  1 ≤ w.idx && w.idx ≤ c.bitsIn.length && w.cw.length == c.bitsIn.length
    && w.flipped == (positions w.decided).countP (fun j => bitAt w.cw j != bitAt c.bitsIn j)
    && (match c with
      | .bsc _ _ => w.phase == .flip && w.s == .good
      | .ge _ _ _ _ _ => true)

/-- BUSY holds a command whose operands passed their checks and whose working state is consistent. -/
def Sequencer.sound (cfg : Config) : Sequencer → Bool
  | .idle => true
  | .busy c w => channelError cfg c == none && w.consistent c

/-- The invariant of a block: legal parameters, draws of PROB_W bits, a sound sequencer, and every
response given fits its fields. -/
def State.sound (s : State) : Bool :=
  s.config.legal && s.rnd.all (legalDraw s.config) && s.inputs.all (legalInput s.config)
    && s.seq.sound s.config && s.resp.all (Response.fits s.config)

end Sys2Proof.Machine
end

