-- ==== Sys2Proof/Certificates/Slice0/Obligations.lean ====
section
/-! DEFINITION. The statements about FEC-CORE for the provers, each from the numbered rules of spec/ or the sections its entry of OBLIGATIONS.json cites. -/

open Sys2Proof Sys2Proof.Machine

/-! ### The command word and its operand fields -/

/-- R60, R63, R66, R69: what the encoder writes, the decoder reads, for every command and every
operand value. -/
def Obligations.DecodeOfEncodeIsTheCommand : Prop :=
  ∀ i : Instr, decode (encode i) = .ok i

/-- A transaction that decodes is the one encoding of its command: no bit of the word and no
operand token is dropped. -/
def Obligations.EncodeOfDecodeIsTheTransaction : Prop :=
  ∀ (o : Offer) (i : Instr), decode o = .ok i → encode i = o

/-- R71: each of the 256 command words either selects one of the seven commands or gives
InvalidCommand, whatever is on OPERANDS. -/
def Obligations.EveryCommandWordIsAccountedFor : Prop :=
  ∀ (w : CmdWord) (operands : List Token),
    ((1 ≤ w.toNat ∧ w.toNat ≤ 7) →
      decode ⟨w, operands⟩ ≠ .error .invalidCommand
        ∧ ∀ i, decode ⟨w, operands⟩ = .ok i → i.opcode = BitVec.ofNat 4 w.toNat)
    ∧ (¬ (1 ≤ w.toNat ∧ w.toNat ≤ 7) → decode ⟨w, operands⟩ = .error .invalidCommand)

/-- Words written out from R61, R63 and R69, one for each command. -/
def Obligations.WordsOfTheOpcodeMapDecode : Prop :=
  decode ⟨0b00000001#8, [.value 4]⟩ = .ok (.hparam 4)
    ∧ decode ⟨0b00000010#8, [.value 2, .bit true, .bit false]⟩ = .ok (.henc [true, false])
    ∧ decode ⟨0b00000011#8, [.value 1, .bit true]⟩ = .ok (.hsyn [true])
    ∧ decode ⟨0b00000100#8, [.value 1, .bit false]⟩ = .ok (.hdec [false])
    ∧ decode ⟨0b00000101#8, [.value 1, .bit true, .value 26]⟩ = .ok (.bsc [true] 26)
    ∧ decode ⟨0b00000110#8, [.value 1, .bit true, .value 64, .value 128, .value 0, .value 192]⟩
        = .ok (.ge [true] 64 128 0 192)
    ∧ decode ⟨0b00000111#8, [.value 1, .bit true, .value 0]⟩ = .ok (.diff [true] [])
    ∧ decode ⟨0b00010010#8, [.value 0]⟩ = .error .invalidCommand

/-! ### The sequencer -/

/-- R22, R47: an IDLE block accepts the oldest command offered and runs it. That this is one step
(log 1) and that one scheduled event lands at its end (log 3) are the model's choices. -/
def Obligations.StepRunsTheDecodedCommand : Prop :=
  ∀ (s : State) (o : Offer) (waiting : List Offer) (i : Instr),
    s.rst = false → s.seq = .idle → s.cmd = o :: waiting → decode o = .ok i →
      step s =
        match exec i { s with cmd := waiting } with
        | .next t => .next t.arrive
        | .fault reason => .fault reason
        | .refused reason => .refused reason

/-- R70, R71: a reserved word gets STATUS = InvalidCommand and nothing else; no operand is read, no
draw is pulled, the block is IDLE. That one scheduled event lands at the end of the step is the
model's choice (log 3). -/
def Obligations.ReservedWordAnswersInvalidCommand : Prop :=
  ∀ (s : State) (o : Offer) (waiting : List Offer),
    s.rst = false → s.seq = .idle → s.cmd = o :: waiting →
      (o.word.extractLsb' 4 4 ≠ 0#4 ∨ o.word.extractLsb' 0 4 = 0#4
        ∨ 8 ≤ (o.word.extractLsb' 0 4).toNat) →
      step s =
        .next { s with cmd := waiting, resp := s.resp ++ [Response.bare .invalidCommand] }.arrive

/-- The model's own stop (log 8): a step never faults, and it is refused exactly when an IDLE block
is offered a transaction whose operand fields are not those of its command and in which no LEN value
above N_MAX is found. -/
def Obligations.StepStopsOnlyOnMalformedOperands : Prop :=
  ∀ s : State,
    (∀ reason, step s ≠ .fault reason)
    ∧ ∀ reason, step s = .refused reason ↔
        (reason = .malformedOperands ∧ s.rst = false ∧ s.seq = .idle
          ∧ ∃ o waiting, s.cmd = o :: waiting ∧ decode o = .error .malformedOperands
            ∧ (offeredLengths o).any (overCapacity s.config) = false)

/-- R67, R178: a LEN value above N_MAX ends the command with CapacityExceeded before anything but the
command word is examined, so also where operand fields behind it are missing, surplus or of another
kind: the first LEN value of any command, and DIFF's second one behind a whole A. The transaction is
taken off the interface and nothing else changes. That one scheduled event lands at the end of the
step is the model's choice (log 3), and so is the layer of tokens (log 7). -/
def Obligations.LenAboveCapacityComesBeforeOperandForm : Prop :=
  ∀ (s : State) (o : Offer) (waiting : List Offer) (bound len : Nat) (rest : List Token),
    s.rst = false → s.seq = .idle → s.cmd = o :: waiting → s.config.nMax = some bound →
    1 ≤ o.word.toNat → o.word.toNat ≤ 7 → bound < len →
    (o.operands = .value len :: rest
      ∨ (o.word = 0x07#8
        ∧ ∃ a : BitVector, o.operands = .value a.length :: a.map .bit ++ .value len :: rest)) →
      step s =
        .next { s with cmd := waiting, resp := s.resp ++ [Response.bare .capacityExceeded] }.arrive

/-- An IDLE block that is offered nothing stays IDLE and gives no response: read by inference from
R22 and R183 (log 20, DEDUCED). That one scheduled event lands at the end of the step is the model's
choice (log 3). -/
def Obligations.IdleBlockWaitsForAnOffer : Prop :=
  ∀ s : State, s.rst = false → s.seq = .idle → s.cmd = [] → step s = .next s.arrive

/-- R195, R133, R22: a command offered while BUSY is not accepted and waits at the interface; the
command in flight answers exactly when the draws it still needs are ready, pulls those and no more,
and from consistent working state gives an output of BITS_IN's length with FLIPPED the positions at
which the two differ. With fewer draws it pulls them all, gives no response and stays BUSY (log 5,
DEDUCED). That one scheduled event lands at the end of the step is the model's choice (log 3). -/
def Obligations.BusyBlockAcceptsNoCommand : Prop :=
  ∀ (s : State) (c : Channel) (w : Work),
    s.rst = false → s.seq = .busy c w →
      (s.rnd.length < drawsDue c w →
        ∃ later : Work, step s = .next { s with rnd := [], seq := .busy c later }.arrive)
      ∧ (drawsDue c w ≤ s.rnd.length →
        ∃ (out : BitVector) (flipped : Nat),
          step s
            = .next { s with
                rnd := s.rnd.drop (drawsDue c w)
                seq := .idle
                resp := s.resp ++ [Response.transmitted out flipped] }.arrive
          ∧ (w.consistent c = true →
            out.length = c.bitsIn.length ∧ countDifferences c.bitsIn out = flipped))

/-- R196: while no draw is ready, a command that needs one gives no response and the block stays
BUSY. That nothing of the waiting command changes meanwhile is read by inference (log 5, DEDUCED);
that one scheduled event lands at the end of the step is the model's choice (log 3). -/
def Obligations.StarvedCommandWaits : Prop :=
  ∀ (s : State) (c : Channel) (w : Work),
    s.rst = false → s.seq = .busy c w → w.idx ≤ c.bitsIn.length → s.rnd = [] →
      step s = .next s.arrive

/-- R190: while RST is asserted the block accepts no command and gives no response; a command in
flight is abandoned and the draws it pulled stay consumed. That commands waiting at the interface,
draws ready on RND and responses already given survive RST is the model's own reading (log 4,
DEDUCED, unsafe); that one scheduled event lands at the end of the step is its choice (log 3). -/
def Obligations.ResetAbandonsTheCommandInFlight : Prop :=
  ∀ s : State, s.rst = true → step s = .next { s with seq := .idle }.arrive

/-- R31: after reset the sequencer is IDLE, no command is in flight and there is no response; for
every choice of the parameters. That nothing is offered, ready or scheduled (log 18), that RST is
released (log 4) and the parameters of State.reset (log 2) are the model's choices. -/
def Obligations.ResetStateIsIdle : Prop :=
  (∀ c : Config, (State.resetWith c).config = c ∧ (State.resetWith c).seq = .idle
    ∧ (State.resetWith c).resp = [] ∧ (State.resetWith c).rst = false
    ∧ (State.resetWith c).cmd = [] ∧ (State.resetWith c).rnd = []
    ∧ (State.resetWith c).inputs = [])
  ∧ State.reset = State.resetWith Config.standard

/-- What one scheduled event does: an offer and a draw land behind what is at their ports already, a
level sets RST, and nothing else moves. All of it is the model's choice (log 3): R192 names what the
outside may send, and fixes no schedule and no order of landing. -/
def Obligations.ScheduledEventLandsAtItsPort : Prop :=
  ∀ (s : State) (later : List Input),
    (∀ o, s.inputs = .offer o :: later →
      s.arrive = { s with inputs := later, cmd := s.cmd ++ [o] })
    ∧ (∀ u, s.inputs = .draw u :: later →
      s.arrive = { s with inputs := later, rnd := s.rnd ++ [u] })
    ∧ (∀ level, s.inputs = .rst level :: later →
      s.arrive = { s with inputs := later, rst := level })
    ∧ (s.inputs = [] → s.arrive = s)

/-! ### HPARAM and the code parameters -/

/-- R80, R81: deriveParameters fails only for m < 1, and else gives m, the least r with
2^r ≥ m + r + 1, and n = m + r. -/
def Obligations.DeriveParametersFindsTheLeastR : Prop :=
  deriveParameters 0 = .error .invalidMessageLength
    ∧ ∀ m : Nat, 1 ≤ m →
      ∃ r, deriveParameters m = .ok ⟨m, r, m + r⟩ ∧ m + r + 1 ≤ 2 ^ r
        ∧ ∀ other : Nat, m + other + 1 ≤ 2 ^ other → r ≤ other

/-- R82: HPARAM's word is 0x01; m = 0 gives InvalidMessageLength; else it answers OK with the least
r and n = m + r, or CapacityExceeded when m or n is above N_MAX. Nothing else changes. -/
def Obligations.HparamFollowsItsRule : Prop :=
  ∀ s : State,
    (∀ m, (encode (.hparam m)).word = 0x01#8)
    ∧ exec (.hparam 0) s
      = .next { s with seq := .idle, resp := s.resp ++ [.bare .invalidMessageLength] }
    ∧ ∀ m r : Nat, 1 ≤ m → leastParityCount m r = true →
      exec (.hparam m) s
        = .next { s with
            seq := .idle
            resp := s.resp ++
              [if overCapacity s.config m = true ∨ overCapacity s.config (m + r) = true then
                .bare .capacityExceeded
               else .params r (m + r)] }

/-- R88: the closed form of the valid lengths, and of r and m, agrees with deriveParameters. -/
def Obligations.ValidLengthsAreTheCodeLengths : Prop :=
  ∀ n : Nat,
    (validN n = true ↔ ∃ m par, deriveParameters m = .ok par ∧ par.n = n)
    ∧ ∀ m par, deriveParameters m = .ok par → par.n = n → par = paramsOfLength n

/-! ### Positions and the parity-check matrix -/

/-- R86, R11, R87: cov(i) holds the positions of 1..n whose bit i is 1, and the only parity position
among them is 2^i. -/
def Obligations.CoverageSetIsTheSetBits : Prop :=
  (∀ n i j : Nat, j ∈ cov n i ↔ (1 ≤ j ∧ j ≤ n ∧ bitOf j i = true))
  ∧ ∀ n i k : Nat, 2 ^ k ∈ cov n i → k = i

/-- R84, R85: for a valid n the parity positions are 2^0 .. 2^(r-1), the data positions are the
n - r others, and both lists are ascending. -/
def Obligations.PositionsSplitIntoParityAndData : Prop :=
  ∀ n : Nat, validN n = true →
    parityPositions n = (List.range (bitlen n)).map (fun i => 2 ^ i)
    ∧ (dataPositions n).length = n - bitlen n
    ∧ (dataPositions n).Pairwise (· < ·)
    ∧ ∀ j, j ∈ dataPositions n ↔ (1 ≤ j ∧ j ≤ n ∧ ∀ i, j ≠ 2 ^ i)

/-- R89: check_i is row i of H applied to the word over GF(2), and the columns of H are non-zero
and pairwise distinct. -/
def Obligations.CheckIsARowOfTheParityCheckMatrix : Prop :=
  (∀ (v : BitVector) (i : Nat),
    check v i
      = xorAll ((positions v.length).map fun j => parityCheckMatrix i j && bitAt v j))
  ∧ (∀ n j : Nat, validN n = true → 1 ≤ j → j ≤ n →
      ∃ i, i < bitlen n ∧ parityCheckMatrix i j = true)
  ∧ ∀ n j k : Nat, validN n = true → 1 ≤ j → j < k → k ≤ n →
      ∃ i, i < bitlen n ∧ parityCheckMatrix i j ≠ parityCheckMatrix i k

/-! ### HENC -/

/-- R100: HENC's word is 0x02; the empty message gives InvalidMessageLength; a codeword that would
be above N_MAX gives CapacityExceeded; else it answers OK with a word of n = m + r bits that holds
the message at the data positions in order, and at each parity position the xor over its coverage
set without itself. Nothing else changes. -/
def Obligations.HencFollowsItsRule : Prop :=
  ∀ s : State,
    (∀ data, (encode (.henc data)).word = 0x02#8)
    ∧ exec (.henc []) s
      = .next { s with seq := .idle, resp := s.resp ++ [.bare .invalidMessageLength] }
    ∧ ∀ (data : BitVector) (r : Nat), data ≠ [] → leastParityCount data.length r = true →
      (overCapacity s.config (data.length + r) = true →
        exec (.henc data) s
          = .next { s with seq := .idle, resp := s.resp ++ [.bare .capacityExceeded] })
      ∧ (overCapacity s.config (data.length + r) = false →
        ∃ cw : BitVector,
          exec (.henc data) s = .next { s with seq := .idle, resp := s.resp ++ [.encoded cw] }
          ∧ cw.length = data.length + r
          ∧ (dataPositions cw.length).map (bitAt cw) = data
          ∧ ∀ i, i < r →
              bitAt cw (2 ^ i)
                = xorAll (((cov cw.length i).filter fun j => j != 2 ^ i).map (bitAt cw)))

/-- R105, R90: the CODEWORD of an OK response satisfies the codeword invariant. -/
def Obligations.HencEstablishesTheCodewordInvariant : Prop :=
  ∀ (s : State) (data cw : BitVector),
    exec (.henc data) s = .next { s with seq := .idle, resp := s.resp ++ [.encoded cw] } →
      isCodeword cw = true

/-- R90: a codeword is determined by the bits at its data positions. -/
def Obligations.CodewordIsDeterminedByItsData : Prop :=
  ∀ v w : BitVector, isCodeword v = true → isCodeword w = true → v.length = w.length →
    extract v = extract w → v = w

/-- R106: encoding is linear over GF(2). -/
def Obligations.EncodingIsLinear : Prop :=
  ∀ (s : State) (a b ca cb : BitVector),
    a.length = b.length →
    exec (.henc a) s = .next { s with seq := .idle, resp := s.resp ++ [.encoded ca] } →
    exec (.henc b) s = .next { s with seq := .idle, resp := s.resp ++ [.encoded cb] } →
      exec (.henc (List.zipWith xor a b)) s
        = .next { s with seq := .idle, resp := s.resp ++ [.encoded (List.zipWith xor ca cb)] }

/-! ### HSYN and HDEC -/

/-- R111 to R113: HSYN's word is 0x03; capacity and then the length are checked; for any word of
valid length it answers OK with the number whose digit i is check_i and the count of checks that
are 1. Nothing else changes. -/
def Obligations.HsynFollowsItsRule : Prop :=
  ∀ (s : State) (v : BitVector),
    (encode (.hsyn v)).word = 0x03#8
    ∧ (overCapacity s.config v.length = true →
      exec (.hsyn v) s
        = .next { s with seq := .idle, resp := s.resp ++ [.bare .capacityExceeded] })
    ∧ (overCapacity s.config v.length = false → (v.length < 3 ∨ ∃ k, v.length = 2 ^ k) →
      exec (.hsyn v) s
        = .next { s with seq := .idle, resp := s.resp ++ [.bare .invalidCodewordLength] })
    ∧ (overCapacity s.config v.length = false → 3 ≤ v.length → (∀ k, v.length ≠ 2 ^ k) →
      ∃ errpos : Nat,
        exec (.hsyn v) s
          = .next { s with seq := .idle, resp := s.resp ++ [.syndrome errpos (failedChecks v)] }
        ∧ spellsChecks errpos v = true ∧ failedChecks v = popcount errpos)

/-- R120: errorPosition is the bitwise xor of the positions that hold a 1. -/
def Obligations.ErrorPositionIsTheXorOfSetPositions : Prop :=
  ∀ v : BitVector,
    errorPosition (syndrome v (bitlen v.length))
      = ((positions v.length).filter (bitAt v)).foldr (fun j acc => j ^^^ acc) 0

/-- R114: HDEC's word is 0x04; capacity and then the length are checked; with errorPosition e it
extracts the word as it is when e is 0, flips position e first when 1 ≤ e ≤ n, and else answers
Uncorrectable with the count of failed checks. Nothing else changes. -/
def Obligations.HdecFollowsItsRule : Prop :=
  ∀ (s : State) (v : BitVector),
    (encode (.hdec v)).word = 0x04#8
    ∧ (overCapacity s.config v.length = true →
      exec (.hdec v) s
        = .next { s with seq := .idle, resp := s.resp ++ [.bare .capacityExceeded] })
    ∧ (overCapacity s.config v.length = false → (v.length < 3 ∨ ∃ k, v.length = 2 ^ k) →
      exec (.hdec v) s
        = .next { s with seq := .idle, resp := s.resp ++ [.bare .invalidCodewordLength] })
    ∧ ∀ e : Nat, overCapacity s.config v.length = false → 3 ≤ v.length →
      (∀ k, v.length ≠ 2 ^ k) → spellsChecks e v = true →
        exec (.hdec v) s =
          .next { s with
            seq := .idle
            resp := s.resp ++
              [if e = 0 then .decoded ((dataPositions v.length).map (bitAt v))
               else if e ≤ v.length then
                .decoded ((dataPositions v.length).map fun j => bitAt v j ^^ (j == e))
               else .uncorrectable (failedChecks v)] }

/-- R115: the flip at errorPosition makes the word a codeword. -/
def Obligations.CorrectionGivesACodeword : Prop :=
  ∀ (v : BitVector) (e : Nat), validN v.length = true → spellsChecks e v = true →
    1 ≤ e → e ≤ v.length → isCodeword (flipAt v e) = true

/-- R116: in an Uncorrectable response FAILED is at least 2. -/
def Obligations.UncorrectableHasTwoFailedChecks : Prop :=
  ∀ (s : State) (v : BitVector) (failed : Nat),
    exec (.hdec v) s = .next { s with seq := .idle, resp := s.resp ++ [.uncorrectable failed] } →
      2 ≤ failed ∧ failed = failedChecks v

/-- R118: decoding the codeword of a message returns the message, and so does decoding it with any
one bit flipped, in a data or a parity position; HSYN then locates that bit. -/
def Obligations.AtMostOneErrorIsCorrected : Prop :=
  ∀ (s t : State) (data cw : BitVector), t.config = s.config →
    exec (.henc data) s = .next { s with seq := .idle, resp := s.resp ++ [.encoded cw] } →
      exec (.hdec cw) t = .next { t with seq := .idle, resp := t.resp ++ [.decoded data] }
      ∧ ∀ idx : Nat, 1 ≤ idx → idx ≤ cw.length →
        exec (.hdec (flipAt cw idx)) t
          = .next { t with seq := .idle, resp := t.resp ++ [.decoded data] }
        ∧ exec (.hsyn (flipAt cw idx)) t
          = .next { t with seq := .idle, resp := t.resp ++ [.syndrome idx (popcount idx)] }

/-- R91, R119: two errors give the xor of their positions, which is neither 0 nor either of them. -/
def Obligations.TwoErrorsPointElsewhere : Prop :=
  ∀ (v : BitVector) (first second : Nat), isCodeword v = true →
    1 ≤ first → first < second → second ≤ v.length →
      spellsChecks (first ^^^ second) (flipAt (flipAt v first) second) = true
      ∧ first ^^^ second ≠ 0 ∧ first ^^^ second ≠ first ∧ first ^^^ second ≠ second

/-- R121: a word of full length n = 2^r - 1 is never Uncorrectable. -/
def Obligations.FullLengthWordsAlwaysDecode : Prop :=
  ∀ (s : State) (v : BitVector) (r : Nat), 2 ≤ r → v.length = 2 ^ r - 1 →
    overCapacity s.config v.length = false →
      ∃ data, exec (.hdec v) s
        = .next { s with seq := .idle, resp := s.resp ++ [.decoded data] }

/-! ### BSC and GE -/

/-- R134: BSC's word is 0x05; capacity and then BER are checked before any draw; with its n draws
ready it flips position j exactly when draw j is below BER, pulls those n draws and no more, and
FLIPPED counts the flips. Nothing else changes. -/
def Obligations.BscFollowsItsRule : Prop :=
  ∀ (s : State) (bits : BitVector) (ber : Nat),
    (encode (.bsc bits ber)).word = 0x05#8
    ∧ (overCapacity s.config bits.length = true →
      exec (.bsc bits ber) s
        = .next { s with seq := .idle, resp := s.resp ++ [.bare .capacityExceeded] })
    ∧ (overCapacity s.config bits.length = false → 2 ^ s.config.probW < ber →
      exec (.bsc bits ber) s
        = .next { s with seq := .idle, resp := s.resp ++ [.bare .invalidParameter] })
    ∧ ∀ draws later : List Nat,
      overCapacity s.config bits.length = false → ber ≤ 2 ^ s.config.probW →
      s.rnd = draws ++ later → draws.length = bits.length →
        exec (.bsc bits ber) s =
          .next { s with
            seq := .idle
            rnd := later
            resp := s.resp ++
              [.transmitted (List.zipWith (fun b u => b ^^ decide (u < ber)) bits draws)
                (draws.countP fun u => decide (u < ber))] }

/-- R137: at BER = 0 the word passes unchanged, at BER = 2^PROB_W every bit is inverted, for every
sequence of draws of PROB_W bits, and n draws are pulled. -/
def Obligations.BscAtTheTwoEnds : Prop :=
  ∀ (s : State) (bits : BitVector) (draws later : List Nat),
    overCapacity s.config bits.length = false →
    s.rnd = draws ++ later → draws.length = bits.length →
    (∀ u ∈ draws, u < 2 ^ s.config.probW) →
      exec (.bsc bits 0) s
        = .next { s with seq := .idle, rnd := later, resp := s.resp ++ [.transmitted bits 0] }
      ∧ exec (.bsc bits (2 ^ s.config.probW)) s
        = .next { s with
            seq := .idle
            rnd := later
            resp := s.resp ++ [.transmitted (bits.map not) bits.length] }

/-- R136, R153: a PROB operand above 2^PROB_W ends BSC and GE with InvalidParameter before any draw
is pulled, whatever the bits and the other operands. -/
def Obligations.ChannelsRejectAProbabilityAboveOne : Prop :=
  ∀ (s : State) (bits : BitVector) (p q r u : Nat), overCapacity s.config bits.length = false →
    (2 ^ s.config.probW < p →
      exec (.bsc bits p) s
        = .next { s with seq := .idle, resp := s.resp ++ [.bare .invalidParameter] })
    ∧ ((2 ^ s.config.probW < p ∨ 2 ^ s.config.probW < q ∨ 2 ^ s.config.probW < r
        ∨ 2 ^ s.config.probW < u) →
      exec (.ge bits p q r u) s
        = .next { s with seq := .idle, resp := s.resp ++ [.bare .invalidParameter] })

/-- R138 (and R156 for GE): on the empty BitVector BSC and GE check their probabilities and then
answer OK with the empty vector and FLIPPED = 0; no draw is pulled. -/
def Obligations.ChannelsPassTheEmptyVector : Prop :=
  ∀ (s : State) (ber pGB pBG pG pB : Nat),
    exec (.bsc [] ber) s
      = .next { s with
          seq := .idle
          resp := s.resp ++
            [if ber ≤ 2 ^ s.config.probW then .transmitted [] 0 else .bare .invalidParameter] }
    ∧ exec (.ge [] pGB pBG pG pB) s
      = .next { s with
          seq := .idle
          resp := s.resp ++
            [if pGB ≤ 2 ^ s.config.probW ∧ pBG ≤ 2 ^ s.config.probW ∧ pG ≤ 2 ^ s.config.probW
                ∧ pB ≤ 2 ^ s.config.probW then
              .transmitted [] 0
             else .bare .invalidParameter] }

/-- R146 to R148: GE's word is 0x06; capacity and then all four probabilities are checked before any
draw; with its 2n draws ready it starts in Good, takes for each position a flip decision and then a
transition decision by the state it finds, pulls those draws and no more, and FLIPPED counts the
flips. Nothing else changes. -/
def Obligations.GeFollowsItsRule : Prop :=
  ∀ (s : State) (bits : BitVector) (pGB pBG pG pB : Nat),
    (encode (.ge bits pGB pBG pG pB)).word = 0x06#8
    ∧ (overCapacity s.config bits.length = true →
      exec (.ge bits pGB pBG pG pB) s
        = .next { s with seq := .idle, resp := s.resp ++ [.bare .capacityExceeded] })
    ∧ (overCapacity s.config bits.length = false →
      (2 ^ s.config.probW < pGB ∨ 2 ^ s.config.probW < pBG ∨ 2 ^ s.config.probW < pG
        ∨ 2 ^ s.config.probW < pB) →
      exec (.ge bits pGB pBG pG pB) s
        = .next { s with seq := .idle, resp := s.resp ++ [.bare .invalidParameter] })
    ∧ ∀ (pairs : List (Nat × Nat)) (later : List Nat),
      overCapacity s.config bits.length = false →
      pGB ≤ 2 ^ s.config.probW → pBG ≤ 2 ^ s.config.probW →
      pG ≤ 2 ^ s.config.probW → pB ≤ 2 ^ s.config.probW →
      s.rnd = pullOrder pairs ++ later → pairs.length = bits.length →
        exec (.ge bits pGB pBG pG pB) s =
          .next { s with
            seq := .idle
            rnd := later
            resp := s.resp ++
              [.transmitted (List.zipWith xor bits (geDecisions pGB pBG pG pB .good pairs))
                ((geDecisions pGB pBG pG pB .good pairs).countP id)] }

/-- R151: with P_GB = 0 a GE command gives the response of a BSC command with BER = P_G that is fed
the GE command's flip draws, whatever P_BG and P_B are. -/
def Obligations.GeWithoutTransitionsIsABsc : Prop :=
  ∀ (s t : State) (bits : BitVector) (pBG pG pB : Nat) (pairs : List (Nat × Nat))
    (later : List Nat),
    overCapacity s.config bits.length = false →
    pBG ≤ 2 ^ s.config.probW → pG ≤ 2 ^ s.config.probW → pB ≤ 2 ^ s.config.probW →
    s.rnd = pullOrder pairs ++ later → pairs.length = bits.length →
    t = { s with rnd := pairs.map Prod.fst } →
      ∃ answer : Response,
        exec (.ge bits 0 pBG pG pB) s
          = .next { s with seq := .idle, rnd := later, resp := s.resp ++ [answer] }
        ∧ exec (.bsc bits pG) t
          = .next { t with seq := .idle, rnd := [], resp := t.resp ++ [answer] }

/-- R152: with P_G = P_B = 0 GE passes the word unchanged with FLIPPED = 0, for every sequence of
draws and every transition probability, and still pulls 2n draws. -/
def Obligations.GeWithoutFlipsPassesTheWord : Prop :=
  ∀ (s : State) (bits : BitVector) (pGB pBG : Nat) (draws later : List Nat),
    overCapacity s.config bits.length = false →
    pGB ≤ 2 ^ s.config.probW → pBG ≤ 2 ^ s.config.probW →
    s.rnd = draws ++ later → draws.length = 2 * bits.length →
      exec (.ge bits pGB pBG 0 0) s
        = .next { s with seq := .idle, rnd := later, resp := s.resp ++ [.transmitted bits 0] }

/-- R155: with P_GB = P_BG = 2^PROB_W the state alternates Good, Bad, Good, ..., so for any legal P_G
and P_B position j is flipped exactly when its flip draw is below P_G (j odd) or P_B (j even). With
P_G = 0 and P_B = 2^PROB_W exactly the even positions are flipped, whatever the flip draws. Draws are
below 2^PROB_W (log 12, DEDUCED), which is a premise here. -/
def Obligations.GeWithCertainTransitionsAlternates : Prop :=
  ∀ (s : State) (bits : BitVector) (pG pB : Nat) (pairs : List (Nat × Nat)) (later : List Nat),
    overCapacity s.config bits.length = false →
    pG ≤ 2 ^ s.config.probW → pB ≤ 2 ^ s.config.probW →
    s.rnd = pullOrder pairs ++ later → pairs.length = bits.length →
    (∀ pair ∈ pairs, pair.2 < 2 ^ s.config.probW) →
      (∀ flips : BitVector,
        flips = (positions bits.length).map (fun j =>
          decide ((pairs.getD (j - 1) (0, 0)).1 < if j % 2 = 1 then pG else pB)) →
        exec (.ge bits (2 ^ s.config.probW) (2 ^ s.config.probW) pG pB) s
          = .next { s with
              seq := .idle
              rnd := later
              resp := s.resp ++ [.transmitted (List.zipWith xor bits flips) (flips.countP id)] })
      ∧ (pG = 0 → pB = 2 ^ s.config.probW → (∀ pair ∈ pairs, pair.1 < 2 ^ s.config.probW) →
        exec (.ge bits (2 ^ s.config.probW) (2 ^ s.config.probW) pG pB) s
          = .next { s with
              seq := .idle
              rnd := later
              resp := s.resp ++
                [.transmitted ((positions bits.length).map fun j => bitAt bits j ^^ (j % 2 == 0))
                  (bits.length / 2)] })

/-- R135: FLIPPED is the number of positions where the output differs from the input, which is what
DIFF counts, and the output has the input's length. -/
def Obligations.FlippedCountsTheDifferences : Prop :=
  ∀ (s t : State) (i : Instr) (bits out : BitVector) (flipped : Nat),
    ((∃ ber, i = .bsc bits ber) ∨ ∃ pGB pBG pG pB, i = .ge bits pGB pBG pG pB) →
    exec i s = .next t → t.resp = s.resp ++ [.transmitted out flipped] →
      out.length = bits.length ∧ countDifferences bits out = flipped

/-- R196: with fewer draws ready than it needs, a channel command gives no response and stays BUSY.
That it pulls those there are is read by inference (log 5, DEDUCED), and that the unused S of a
waiting BSC is Good, which Work.consistent says, is the model's choice (log 9). -/
def Obligations.ChannelStaysBusyWithoutItsDraws : Prop :=
  ∀ (s : State) (i : Instr) (c : Channel),
    ((∃ bits ber, i = .bsc bits ber ∧ c = .bsc bits ber)
      ∨ ∃ bits pGB pBG pG pB, i = .ge bits pGB pBG pG pB ∧ c = .ge bits pGB pBG pG pB) →
    channelError s.config c = none → s.rnd.length < drawsOf i →
      ∃ w : Work, exec i s = .next { s with rnd := [], seq := .busy c w }
        ∧ w.consistent c = true

/-- Draws that come late change nothing: a command that waited and goes on with more draws ends as
it would have with all of them ready. That a waiting command goes on when draws arrive is read by
inference (log 5, DEDUCED). -/
def Obligations.LateDrawsGiveTheSameOutcome : Prop :=
  ∀ (s : State) (c : Channel) (w waiting : Work) (early late : List Nat),
    ({ s with rnd := early }.transmit c w).seq = .busy c waiting →
      { { s with rnd := early }.transmit c w with rnd := late }.transmit c waiting
        = { s with rnd := early ++ late }.transmit c w

/-- R51, R133, R198: a BSC or GE command that is run with too few draws waits, and the step that
finds the late draws at RND answers what the command answers with all draws ready: the same response,
the same draws left. That a waiting command goes on when draws arrive is read by inference (log 5,
DEDUCED); that one scheduled event lands at the end of the step is the model's choice (log 3). -/
def Obligations.LateDrawsAnswerAsIfReady : Prop :=
  ∀ (s : State) (i : Instr) (c : Channel) (early late : List Nat),
    ((∃ bits ber, i = .bsc bits ber ∧ c = .bsc bits ber)
      ∨ ∃ bits pGB pBG pG pB, i = .ge bits pGB pBG pG pB ∧ c = .ge bits pGB pBG pG pB) →
    channelError s.config c = none → early.length < drawsOf i → s.rst = false →
      ∃ (w : Work) (u : State),
        exec i { s with rnd := early } = .next { s with rnd := [], seq := .busy c w }
        ∧ exec i { s with rnd := early ++ late } = .next u
        ∧ step { s with rnd := late, seq := .busy c w } = .next u.arrive
        ∧ (drawsOf i ≤ (early ++ late).length →
          ∃ (out : BitVector) (flipped : Nat),
            u = { s with
              rnd := (early ++ late).drop (drawsOf i)
              seq := .idle
              resp := s.resp ++ [Response.transmitted out flipped] })

/-! ### DIFF -/

/-- R160, R161: DIFF's word is 0x07; a length above N_MAX gives CapacityExceeded; else it answers OK
with the number of positions of the common prefix at which the two differ plus the difference of
their lengths. Nothing else changes. -/
def Obligations.DiffFollowsItsRule : Prop :=
  ∀ (s : State) (a b : BitVector),
    (encode (.diff a b)).word = 0x07#8
    ∧ exec (.diff a b) s =
      .next { s with
        seq := .idle
        resp := s.resp ++
          [if overCapacity s.config a.length = true ∨ overCapacity s.config b.length = true then
            .bare .capacityExceeded
           else
            .counted ((List.zipWith xor a b).countP id
              + (max a.length b.length - min a.length b.length))] }

/-- R162: the laws of the difference count. -/
def Obligations.DifferenceCountLaws : Prop :=
  ∀ a b : BitVector,
    countDifferences a a = 0 ∧ countDifferences a b = countDifferences b a
    ∧ countDifferences a b ≤ max a.length b.length
    ∧ countDifferences [] b = b.length
    ∧ (countDifferences a b = 0 → a = b)

/-! ### All commands -/

/-- Every command answers a next state, and its frame is: the parameters, what waits at the
interface, RST and the schedule are unchanged; draws are only pulled from the front; earlier
responses stand and at most one is added; a command that needs no draw pulls none and gives its
response at once. That a command which stays BUSY (R196) has pulled every draw that was ready is read
by inference (log 5, DEDUCED). -/
def Obligations.EveryCommandAnswersAndItsFrame : Prop :=
  ∀ (i : Instr) (s : State), ∃ t : State, exec i s = .next t
    ∧ t.config = s.config ∧ t.cmd = s.cmd ∧ t.rst = s.rst ∧ t.inputs = s.inputs
    ∧ (∃ pulled, s.rnd = pulled ++ t.rnd)
    ∧ ((t.seq = .idle ∧ ∃ r, t.resp = s.resp ++ [r])
      ∨ (t.resp = s.resp ∧ t.rnd = [] ∧ ∃ c w, t.seq = .busy c w))
    ∧ (drawsOf i = 0 → t.rnd = s.rnd ∧ t.seq = .idle)

/-- R51, R133: a command that ends with OK has pulled exactly the draws its rule says, and one that
ends with any other status none. -/
def Obligations.DrawsPulledAreFixedByTheCommand : Prop :=
  ∀ (i : Instr) (s t : State) (r : Response), exec i s = .next t → t.resp = s.resp ++ [r] →
    (r.status = .ok → drawsOf i ≤ s.rnd.length ∧ t.rnd = s.rnd.drop (drawsOf i))
    ∧ (r.status ≠ .ok → t.rnd = s.rnd)

/-- R180: a response whose status is not OK is the command's only effect. -/
def Obligations.AnErrorStatusHasNoOtherEffect : Prop :=
  ∀ (i : Instr) (s t : State) (r : Response), exec i s = .next t → t.resp = s.resp ++ [r] →
    r.status ≠ .ok → t = { s with seq := .idle, resp := s.resp ++ [r] }

/-- R68: OK carries every response field of the command, by the names of R63 (responseFields), and
FAILED of HDEC is then 0; Uncorrectable is HDEC's alone and carries only FAILED, the number of failed
checks; any other status carries no field. -/
def Obligations.ResponsesCarryTheirValidFields : Prop :=
  ∀ (i : Instr) (s t : State) (r : Response), exec i s = .next t → t.resp = s.resp ++ [r] →
    r.validFor i = true
    ∧ (∀ v, i = .hdec v → r.status = .ok → r.failed = some 0)
    ∧ (r.status = .uncorrectable → ∃ v, i = .hdec v ∧ r.failed = some (failedChecks v))

/-- R60, R63, R66, R68: what leaves on RESP for each response a command or a reserved word gives:
STATUS by its number, then the valid fields of the command in the order of R63, a BITS field as its
length and then its bits. The layer of tokens is the model's choice (log 7). -/
def Obligations.ResponsesLeaveAsTheirFields : Prop :=
  (∀ r n : Nat, (Response.params r n).transfer = [.value 0, .value r, .value n])
  ∧ (∀ v : BitVector, (Response.encoded v).transfer = .value 0 :: .value v.length :: v.map .bit)
  ∧ (∀ errpos failed : Nat,
    (Response.syndrome errpos failed).transfer = [.value 0, .value errpos, .value failed])
  ∧ (∀ v : BitVector,
    (Response.decoded v).transfer = .value 0 :: .value v.length :: v.map .bit ++ [.value 0])
  ∧ (∀ failed : Nat, (Response.uncorrectable failed).transfer = [.value 4, .value failed])
  ∧ (∀ (v : BitVector) (flipped : Nat),
    (Response.transmitted v flipped).transfer
      = .value 0 :: .value v.length :: v.map .bit ++ [.value flipped])
  ∧ (∀ count : Nat, (Response.counted count).transfer = [.value 0, .value count])
  ∧ [Status.invalidParameter, .invalidMessageLength, .invalidCodewordLength, .invalidCommand,
      .capacityExceeded].map (fun status => (Response.bare status).transfer)
    = [[.value 1], [.value 2], [.value 3], [.value 5], [.value 6]]

/-- R177: which command can give which status. -/
def Obligations.EachCommandGivesOnlyItsStatuses : Prop :=
  ∀ (i : Instr) (s t : State) (r : Response), exec i s = .next t → t.resp = s.resp ++ [r] →
    r.status ∈ possibleStatuses i

/-- R67, R176: a LEN value above N_MAX ends every command with CapacityExceeded, whatever else is
wrong, and so does a result of HPARAM or HENC that would be above it; no draw is pulled; with N_MAX
unbounded it never happens. -/
def Obligations.CapacityComesFirst : Prop :=
  (∀ (i : Instr) (s : State) (bound len : Nat), s.config.nMax = some bound →
    len ∈ operandLengths i → bound < len →
      exec i s = .next { s with seq := .idle, resp := s.resp ++ [.bare .capacityExceeded] })
  ∧ (∀ (i : Instr) (s : State) (bound m r : Nat), s.config.nMax = some bound →
    (i = .hparam m ∨ ∃ data, i = .henc data ∧ data.length = m) → 1 ≤ m →
    leastParityCount m r = true → bound < m + r →
      exec i s = .next { s with seq := .idle, resp := s.resp ++ [.bare .capacityExceeded] })
  ∧ ∀ (i : Instr) (s t : State) (r : Response), s.config.nMax = none →
    exec i s = .next t → t.resp = s.resp ++ [r] → r.status ≠ .capacityExceeded

/-- 92 D3: a finite N_MAX only adds refusals, never a different result. -/
def Obligations.FiniteCapacityOnlyAddsRefusals : Prop :=
  ∀ (i : Instr) (s : State),
    exec i s = .next { s with seq := .idle, resp := s.resp ++ [.bare .capacityExceeded] }
    ∨ ∃ t : State, exec i { s with config := { s.config with nMax := none } } = .next t
        ∧ exec i s = .next { t with config := s.config }

/-- R16, R20: what a command does is a function of its operands, the parameters and the draws that
are ready, and of nothing else: not of earlier responses, nor of what waits at the ports. -/
def Obligations.ResponseIsIndependentOfHistory : Prop :=
  ∀ (i : Instr) (s t : State), s.config = t.config → s.rnd = t.rnd →
    ∃ (given : List Response) (seq : Sequencer) (rnd : List Nat),
      exec i s = .next { s with resp := s.resp ++ given, seq := seq, rnd := rnd }
      ∧ exec i t = .next { t with resp := t.resp ++ given, seq := seq, rnd := rnd }

/-- R170: the status numbers are 0 to 6, each names one status, and 7 is never produced. -/
def Obligations.StatusCodesNameTheStatuses : Prop :=
  (∀ status : Status, Status.ofCode status.code = some status ∧ status.code ≠ 7#3)
    ∧ [Status.ok, .invalidParameter, .invalidMessageLength, .invalidCodewordLength,
        .uncorrectable, .invalidCommand, .capacityExceeded].map Status.code
      = [0#3, 1#3, 2#3, 3#3, 4#3, 5#3, 6#3]

/-- R12, R62, R21, R130: every step keeps the block sound: parameters legal, draws of PROB_W bits
(log 12, DEDUCED), a waiting channel command consistent (FLIPPED counts exactly the decided positions
at which CW differs from BITS_IN), and every response within the widths of its fields. That the
unused S of a waiting BSC is Good is the model's choice (log 9), and so is the schedule (log 3). -/
def Obligations.EveryStepKeepsTheBlockSound : Prop :=
  ∀ s t : State, s.sound = true → step s = .next t → t.sound = true

/-- The block is sound after reset, for every legal choice of the parameters. -/
def Obligations.ResetStateIsSound : Prop :=
  (∀ c : Config, c.legal = true → (State.resetWith c).sound = true) ∧ State.reset.sound = true
end

