-- ==== Sys2Proof/Laws/Arith.lean ====
section
/-! SUPPORT. The small laws of the integer and BitVector primitives (spec/00_scope.md R8 to R13). -/

namespace Sys2Proof.Machine

theorem ispow2_iff (j : Nat) : ispow2 j = true ↔ ∃ i, j = 2 ^ i := by
  simp only [ispow2, beq_iff_eq]
  constructor
  · intro h
    exact ⟨_, h⟩
  · rintro ⟨i, rfl⟩
    rw [Nat.log2_two_pow]

theorem bitOf_eq_testBit (j i : Nat) : bitOf j i = j.testBit i := by
  rw [bitOf, Nat.testBit_eq_decide_div_mod_eq]
  exact Bool.beq_eq_decide_eq ..

/-- The source's test `(j & 2^i) ≠ 0` is bit i of j (R10, R11). -/
theorem masked_eq_bitOf (j i : Nat) : (j &&& 2 ^ i != 0) = bitOf j i := by
  rw [bitOf_eq_testBit]
  cases h : j.testBit i <;> simp [Nat.and_two_pow, h]

theorem lt_two_pow_bitlen (n : Nat) : n < 2 ^ bitlen n := by
  unfold bitlen
  split
  · simp_all
  · exact Nat.lt_log2_self

theorem two_pow_bitlen_pred_le {n : Nat} (h : n ≠ 0) : 2 ^ (bitlen n - 1) ≤ n := by
  simp only [bitlen, h, if_false, Nat.add_sub_cancel]
  exact Nat.log2_self_le h

/-- bitlen(n) is the least width that holds n (R7, R13). -/
theorem bitlen_le_iff (n w : Nat) : bitlen n ≤ w ↔ n < 2 ^ w := by
  constructor
  · intro h
    exact Nat.lt_of_lt_of_le (lt_two_pow_bitlen n) (Nat.pow_le_pow_right (by decide) h)
  · intro h
    by_cases hn : n = 0
    · simp [bitlen, hn]
    · have hp := Nat.lt_of_le_of_lt (two_pow_bitlen_pred_le hn) h
      have := (Nat.pow_lt_pow_iff_right (by decide : 1 < 2)).1 hp
      omega

theorem bitlen_mono {m n : Nat} (h : m ≤ n) : bitlen m ≤ bitlen n :=
  (bitlen_le_iff m _).2 (Nat.lt_of_le_of_lt h (lt_two_pow_bitlen n))

theorem mem_positions (n j : Nat) : j ∈ positions n ↔ 1 ≤ j ∧ j ≤ n := by
  simp only [positions, List.mem_range'_1]
  omega

@[simp] theorem length_positions (n : Nat) : (positions n).length = n := by
  simp [positions]

theorem positions_succ (n : Nat) : positions (n + 1) = positions n ++ [n + 1] := by
  simp [positions, List.range'_concat, Nat.add_comm]

@[simp] theorem length_setAt (v : BitVector) (j : Nat) (b : Bool) :
    (setAt v j b).length = v.length := by
  simp [setAt]

theorem bitAt_setAt_self {v : BitVector} {j : Nat} (b : Bool) (h1 : 1 ≤ j) (hn : j ≤ v.length) :
    bitAt (setAt v j b) j = b := by
  have : j - 1 < v.length := by omega
  simp [bitAt, setAt, List.getD_eq_getElem?_getD, this]

theorem bitAt_setAt_ne {v : BitVector} {j k : Nat} (b : Bool) (hj : 1 ≤ j) (hk : 1 ≤ k)
    (h : j ≠ k) : bitAt (setAt v j b) k = bitAt v k := by
  have : j - 1 ≠ k - 1 := by omega
  simp [bitAt, setAt, List.getD_eq_getElem?_getD, List.getElem?_set_ne this]

@[simp] theorem length_newVector (n : Nat) : (newVector n).length = n := by
  simp [newVector]

@[simp] theorem xorAll_nil : xorAll [] = false := rfl

@[simp] theorem xorAll_cons (b : Bool) (l : List Bool) : xorAll (b :: l) = (b ^^ xorAll l) := rfl

theorem xorAll_append (k l : List Bool) : xorAll (k ++ l) = (xorAll k ^^ xorAll l) := by
  induction k with
  | nil => simp
  | cons b k ih => simp [ih]

theorem xorAll_map_xor {α : Type} (l : List α) (f g : α → Bool) :
    xorAll (l.map fun x => f x ^^ g x) = (xorAll (l.map f) ^^ xorAll (l.map g)) := by
  induction l with
  | nil => rfl
  | cons x l ih =>
    simp only [List.map_cons, xorAll_cons, ih]
    cases f x <;> cases g x <;> simp

/-- An xor over a filtered list is an xor of the masked terms over the whole list (R89). -/
theorem xorAll_map_filter {α : Type} (l : List α) (p f : α → Bool) :
    xorAll ((l.filter p).map f) = xorAll (l.map fun x => p x && f x) := by
  induction l with
  | nil => rfl
  | cons x l ih => cases h : p x <;> simp [h, ih]

theorem absDiff_eq_max_sub_min (x y : Nat) : absDiff x y = max x y - min x y := by
  unfold absDiff
  split <;> omega

end Sys2Proof.Machine
end

