-- ==== Sys2Proof/Laws/State.lean ====
section
/-! SUPPORT. What each update of the state leaves in each field, true by unfolding once. -/

namespace Sys2Proof.Machine

variable (s : State) (r : Response) (st : Status) (o : Offer) (u : Nat) (b : Bool) (c : Config)

@[simp] theorem State.respond_config : (s.respond r).config = s.config := rfl
@[simp] theorem State.respond_cmd : (s.respond r).cmd = s.cmd := rfl
@[simp] theorem State.respond_rnd : (s.respond r).rnd = s.rnd := rfl
@[simp] theorem State.respond_seq : (s.respond r).seq = .idle := rfl
@[simp] theorem State.respond_resp : (s.respond r).resp = s.resp ++ [r] := rfl
@[simp] theorem State.respond_rst : (s.respond r).rst = s.rst := rfl
@[simp] theorem State.respond_inputs : (s.respond r).inputs = s.inputs := rfl

@[simp] theorem State.raise_eq_respond : s.raise st = s.respond (.bare st) := rfl

@[simp] theorem State.abandon_config : s.abandon.config = s.config := rfl
@[simp] theorem State.abandon_cmd : s.abandon.cmd = s.cmd := rfl
@[simp] theorem State.abandon_rnd : s.abandon.rnd = s.rnd := rfl
@[simp] theorem State.abandon_seq : s.abandon.seq = .idle := rfl
@[simp] theorem State.abandon_resp : s.abandon.resp = s.resp := rfl
@[simp] theorem State.abandon_rst : s.abandon.rst = s.rst := rfl
@[simp] theorem State.abandon_inputs : s.abandon.inputs = s.inputs := rfl

@[simp] theorem State.offerNext_config : (s.offerNext o).config = s.config := rfl
@[simp] theorem State.offerNext_cmd : (s.offerNext o).cmd = o :: s.cmd := rfl
@[simp] theorem State.offerNext_rnd : (s.offerNext o).rnd = s.rnd := rfl
@[simp] theorem State.offerNext_seq : (s.offerNext o).seq = .idle := rfl
@[simp] theorem State.offerNext_resp : (s.offerNext o).resp = s.resp := rfl
@[simp] theorem State.offerNext_rst : (s.offerNext o).rst = false := rfl
@[simp] theorem State.offerNext_inputs : (s.offerNext o).inputs = s.inputs := rfl

@[simp] theorem State.receive_offer : s.receive (.offer o) = { s with cmd := s.cmd ++ [o] } := rfl
@[simp] theorem State.receive_draw : s.receive (.draw u) = { s with rnd := s.rnd ++ [u] } := rfl
@[simp] theorem State.receive_rst : s.receive (.rst b) = { s with rst := b } := rfl

@[simp] theorem State.resetWith_config : (State.resetWith c).config = c := rfl
@[simp] theorem State.resetWith_cmd : (State.resetWith c).cmd = [] := rfl
@[simp] theorem State.resetWith_rnd : (State.resetWith c).rnd = [] := rfl
@[simp] theorem State.resetWith_seq : (State.resetWith c).seq = .idle := rfl
@[simp] theorem State.resetWith_resp : (State.resetWith c).resp = [] := rfl
@[simp] theorem State.resetWith_rst : (State.resetWith c).rst = false := rfl
@[simp] theorem State.resetWith_inputs : (State.resetWith c).inputs = [] := rfl

theorem State.arrive_of_nothing_scheduled (h : s.inputs = []) : s.arrive = s := by
  simp [State.arrive, h]

theorem State.arrive_of_scheduled {event : Input} {later : List Input}
    (h : s.inputs = event :: later) : s.arrive = { s with inputs := later }.receive event := by
  simp [State.arrive, h]

/-- An event never touches the parameters, the sequencer or the responses given. -/
@[simp] theorem State.arrive_config : s.arrive.config = s.config := by
  unfold State.arrive
  split
  · rfl
  · rename_i event _ _; cases event <;> rfl

@[simp] theorem State.arrive_seq : s.arrive.seq = s.seq := by
  unfold State.arrive
  split
  · rfl
  · rename_i event _ _; cases event <;> rfl

@[simp] theorem State.arrive_resp : s.arrive.resp = s.resp := by
  unfold State.arrive
  split
  · rfl
  · rename_i event _ _; cases event <;> rfl

end Sys2Proof.Machine
end

