-- ==== Sys2Proof/Laws/Ops.lean ====
section
/-! SUPPORT. What each shared operation of the machine can do, said once: pulling draws, running a channel command, accepting, advancing, stepping. -/

namespace Sys2Proof.Machine

variable {c : Channel} {w : Work} {s t : State}

theorem Channel.pull_nil : c.pull w [] = (w, []) := rfl

theorem Channel.pull_finished (h : c.finished w = true) (ready : List Nat) :
    c.pull w ready = (w, ready) := by
  cases ready <;> simp [Channel.pull, h]

theorem Channel.pull_cons (h : c.finished w = false) (u : Nat) (later : List Nat) :
    c.pull w (u :: later) = c.pull (c.onDraw u w) later := by
  simp [Channel.pull, h]

/-- Pulling takes draws from the front only, and a command that is not over has taken all. -/
theorem Channel.pull_takes_from_the_front (ready : List Nat) :
    (∃ pulled, ready = pulled ++ (c.pull w ready).2)
      ∧ (c.finished (c.pull w ready).1 = false → (c.pull w ready).2 = []) := by
  induction ready generalizing w with
  | nil => exact ⟨⟨[], rfl⟩, fun _ => rfl⟩
  | cons u later ih =>
    cases h : c.finished w with
    | true => rw [Channel.pull_finished h]; exact ⟨⟨[], rfl⟩, fun hf => by simp [h] at hf⟩
    | false =>
      rw [Channel.pull_cons h]
      obtain ⟨⟨pulled, hp⟩, hrest⟩ := ih (w := c.onDraw u w)
      exact ⟨⟨u :: pulled, by simp [← hp]⟩, hrest⟩

/-- Draws may arrive in two lots: pulling goes on where it stopped. -/
theorem Channel.pull_append (early late : List Nat) :
    c.pull w (early ++ late)
      = if c.finished (c.pull w early).1 then
          ((c.pull w early).1, (c.pull w early).2 ++ late)
        else c.pull (c.pull w early).1 late := by
  induction early generalizing w with
  | nil =>
    cases h : c.finished w with
    | true => simp [h, Channel.pull_finished h]
    | false => simp [Channel.pull_nil, h]
  | cons u early ih =>
    cases h : c.finished w with
    | true => simp [Channel.pull_finished h, h]
    | false => simp only [List.cons_append, Channel.pull_cons h, ih]

/-- Running a channel command either answers or leaves it BUSY with no draw ready. -/
theorem State.transmit_cases (s : State) (c : Channel) (w : Work) :
    (c.finished (c.pull w s.rnd).1 = true
        ∧ s.transmit c w
          = { s with rnd := (c.pull w s.rnd).2 }.respond
              (.transmitted (c.pull w s.rnd).1.cw (c.pull w s.rnd).1.flipped))
      ∨ (c.finished (c.pull w s.rnd).1 = false
        ∧ s.transmit c w = { s with rnd := [], seq := .busy c (c.pull w s.rnd).1 }) := by
  cases h : c.finished (c.pull w s.rnd).1 with
  | true => exact .inl ⟨rfl, by simp [State.transmit, h]⟩
  | false =>
    have := (Channel.pull_takes_from_the_front (c := c) (w := w) s.rnd).2 h
    exact .inr ⟨rfl, by simp [State.transmit, h, this]⟩

/-- A channel command is either ended by its operand checks or run from the start. -/
theorem State.startChannel_cases (s : State) (c : Channel) :
    (∃ status, channelError s.config c = some status ∧ s.startChannel c = s.raise status)
      ∨ (channelError s.config c = none ∧ s.startChannel c = s.transmit c c.start) := by
  cases h : channelError s.config c with
  | some status => exact .inl ⟨status, rfl, by simp [State.startChannel, h]⟩
  | none => exact .inr ⟨rfl, by simp [State.startChannel, h]⟩

/-- What one step can do when it answers a next state. -/
theorem step_cases (h : step s = .next t) :
    (s.rst = true ∧ t = s.abandon.arrive)
      ∨ (s.rst = false ∧ ∃ c w, s.seq = .busy c w ∧ t = (s.transmit c w).arrive)
      ∨ (s.rst = false ∧ s.seq = .idle ∧ s.cmd = [] ∧ t = s.arrive)
      ∨ (s.rst = false ∧ s.seq = .idle ∧ ∃ o waiting, s.cmd = o :: waiting
          ∧ ((decode o = .error .invalidCommand
                ∧ t = ({ s with cmd := waiting }.raise .invalidCommand).arrive)
            ∨ (decode o = .error .malformedOperands
                ∧ (offeredLengths o).any (overCapacity s.config) = true
                ∧ t = ({ s with cmd := waiting }.raise .capacityExceeded).arrive)
            ∨ ∃ i u, decode o = .ok i ∧ exec i { s with cmd := waiting } = .next u
                ∧ t = u.arrive)) := by
  unfold step at h
  split at h
  case h_2 => cases h
  case h_3 => cases h
  case h_1 after hadv =>
  simp only [Host.Outcome.next.injEq] at h
  subst h
  unfold State.advance at hadv
  split at hadv
  · simp only [Host.Outcome.next.injEq] at hadv
    subst hadv
    exact .inl ⟨‹_›, rfl⟩
  · have hrst : s.rst = false := by simpa using ‹¬s.rst = true›
    split at hadv
    · rename_i c w hseq
      simp only [Host.Outcome.next.injEq] at hadv
      subst hadv
      exact .inr (.inl ⟨hrst, c, w, hseq, rfl⟩)
    · rename_i hseq
      unfold State.accept at hadv
      split at hadv
      · rename_i hcmd
        simp only [Host.Outcome.next.injEq] at hadv
        subst hadv
        exact .inr (.inr (.inl ⟨hrst, hseq, hcmd, rfl⟩))
      · rename_i o waiting hcmd
        refine .inr (.inr (.inr ⟨hrst, hseq, o, waiting, hcmd, ?_⟩))
        split at hadv
        · rename_i i hdec
          exact .inr (.inr ⟨i, after, hdec, hadv, rfl⟩)
        · rename_i hdec
          simp only [Host.Outcome.next.injEq] at hadv
          subst hadv
          exact .inl ⟨hdec, rfl⟩
        · rename_i hdec
          split at hadv
          · rename_i hlen
            simp only [Host.Outcome.next.injEq] at hadv
            subst hadv
            exact .inr (.inl ⟨hdec, hlen, rfl⟩)
          · cases hadv

end Sys2Proof.Machine
end

