-- ==== Sys2Proof/Laws/Channels.lean ====
section
/-! SUPPORT. What one draw does to each part of a channel command's working state, how many draws it still needs, and when its operand checks pass. -/

namespace Sys2Proof.Machine

variable (bits : BitVector) (ber pGB pBG pG pB u : Nat) (d : Bool) (w : Work)

@[simp] theorem applyFlip_idx : (applyFlip bits d w).idx = w.idx := rfl
@[simp] theorem applyFlip_s : (applyFlip bits d w).s = w.s := rfl
@[simp] theorem applyFlip_phase : (applyFlip bits d w).phase = w.phase := rfl
@[simp] theorem applyFlip_flipped : (applyFlip bits d w).flipped = w.flipped + d.toNat := rfl
@[simp] theorem applyFlip_cw :
    (applyFlip bits d w).cw = setAt w.cw w.idx (bitAt bits w.idx ^^ d) := rfl

@[simp] theorem bern_zero : bern 0 u = false := by
  simp [bern]

theorem bern_one {u : Nat} {width : Nat} (h : u < 2 ^ width) : bern (2 ^ width) u = true := by
  simp [bern, h]

theorem onDraw_bsc :
    (Channel.bsc bits ber).onDraw u w
      = { applyFlip bits (bern ber u) w with idx := w.idx + 1 } := rfl

theorem onDraw_ge_flip (h : w.phase = .flip) :
    (Channel.ge bits pGB pBG pG pB).onDraw u w
      = { applyFlip bits (bern (flipProb pG pB w.s) u) w with phase := .transition } := by
  simp [Channel.onDraw, h]

theorem onDraw_ge_transition (h : w.phase = .transition) :
    (Channel.ge bits pGB pBG pG pB).onDraw u w
      = { w with
          s := if bern (leaveProb pGB pBG w.s) u then w.s.other else w.s
          phase := .flip
          idx := w.idx + 1 } := by
  simp [Channel.onDraw, h]

/-- A draw never changes the length of CW. -/
theorem length_cw_onDraw (c : Channel) : (c.onDraw u w).cw.length = w.cw.length := by
  cases c with
  | bsc bits ber => simp [onDraw_bsc]
  | ge bits pGB pBG pG pB =>
    cases h : w.phase with
    | flip => simp [onDraw_ge_flip bits pGB pBG pG pB u w h]
    | transition => simp [onDraw_ge_transition bits pGB pBG pG pB u w h]

/-- The loop is over exactly when IDX is past the word. -/
theorem finished_iff (c : Channel) : c.finished w = true ↔ c.bitsIn.length < w.idx := by
  simp [Channel.finished]

/-- A channel command is over exactly when no draw is due. -/
theorem finished_iff_drawsDue (c : Channel) : c.finished w = true ↔ drawsDue c w = 0 := by
  rw [finished_iff]
  cases c with
  | bsc bits ber => simp only [Channel.bitsIn, drawsDue]; omega
  | ge bits pGB pBG pG pB =>
    simp only [Channel.bitsIn, drawsDue]
    cases w.phase <;> simp only <;> omega

/-- While the command is not over, one draw is one draw less that is due (R133). -/
theorem drawsDue_onDraw (c : Channel) (h : c.finished w = false) :
    drawsDue c w = drawsDue c (c.onDraw u w) + 1 := by
  have h : ¬ c.bitsIn.length < w.idx := fun hlt => by simp [(finished_iff w c).2 hlt] at h
  cases c with
  | bsc bits ber =>
    simp only [Channel.bitsIn] at h
    simp only [onDraw_bsc, drawsDue]; omega
  | ge bits pGB pBG pG pB =>
    simp only [Channel.bitsIn] at h
    cases hp : w.phase with
    | flip =>
      simp only [onDraw_ge_flip bits pGB pBG pG pB u w hp, drawsDue, hp, applyFlip_idx]; omega
    | transition =>
      simp only [onDraw_ge_transition bits pGB pBG pG pB u w hp, drawsDue, hp]; omega

/-- Pulling takes exactly the draws that are due, or all when they do not suffice, and the command is
over exactly when they suffice (R133, R196). -/
theorem Channel.pull_takes_the_draws_due (c : Channel) (w : Work) (ready : List Nat) :
    (c.pull w ready).2 = ready.drop (drawsDue c w)
      ∧ (c.finished (c.pull w ready).1 = true ↔ drawsDue c w ≤ ready.length) := by
  induction ready generalizing w with
  | nil => simp [Channel.pull_nil, finished_iff_drawsDue]
  | cons u later ih =>
    cases h : c.finished w with
    | true => simp [Channel.pull_finished h, h, (finished_iff_drawsDue w c).1 h]
    | false =>
      rw [Channel.pull_cons h, drawsDue_onDraw u w c h]
      simpa using ih (c.onDraw u w)

/-- The operand checks of a channel command pass exactly when the length is within capacity and
every probability is at most one (R136, R153). -/
theorem channelError_eq_none_iff (cfg : Config) (c : Channel) :
    channelError cfg c = none
      ↔ overCapacity cfg c.bitsIn.length = false ∧ ∀ p ∈ c.probs, p ≤ 2 ^ cfg.probW := by
  unfold channelError
  cases h : overCapacity cfg c.bitsIn.length <;> simp [illegalProb]

end Sys2Proof.Machine
end

