-- ==== Sys2Proof/Laws/Decode.lean ====
section
/-! SUPPORT. The small laws of the stream readers, of the command word and of the lengths a transaction offers (spec/30_encoding.md R61, R66, R67). -/

namespace Sys2Proof

theorem rsvOf_wordOfOp (op : BitVec 4) : rsvOf (wordOfOp op) = 0#4 := by
  revert op; decide

theorem opOf_wordOfOp (op : BitVec 4) : opOf (wordOfOp op) = op := by
  revert op; decide

theorem fieldsOfWord_wordOfOp (op : BitVec 4) : fieldsOfWord (wordOfOp op) = fieldsOfOp op := by
  rw [fieldsOfWord, if_pos (rsvOf_wordOfOp op), opOf_wordOfOp]

/-- RSV and OP make up the whole command word. -/
theorem wordOfOp_opOf (w : CmdWord) (h : rsvOf w = 0#4) : wordOfOp (opOf w) = w := by
  revert w; decide

theorem readBitRun_written (v : BitVector) (rest : List Token) :
    readBitRun v.length (v.map .bit ++ rest) = some (v, rest) := by
  induction v with
  | nil => rfl
  | cons b v ih => simp [readBitRun, ih]

/-- The length part of a BITS field is found whether or not its bits follow. -/
theorem head_mem_lengthsIn_bits (fields : List FieldType) (len : Nat) (rest : List Token) :
    len ∈ lengthsIn (.bits :: fields) (.value len :: rest) := by
  simp [lengthsIn]

/-- Behind a whole BITS field the next fields are found. -/
theorem lengthsIn_writeBits (fields : List FieldType) (v : BitVector) (rest : List Token) :
    lengthsIn (.bits :: fields) (writeBits v ++ rest) = v.length :: lengthsIn fields rest := by
  simp [lengthsIn, writeBits, readBitRun_written]

/-- A transaction that carries a command offers exactly the command's LEN operands (R67). -/
theorem offeredLengths_encode (i : Instr) :
    offeredLengths (encode i) = Machine.operandLengths i := by
  have written := fun (v : BitVector) fields => lengthsIn_writeBits fields v []
  simp only [List.append_nil] at written
  cases i <;>
    simp [offeredLengths, encode, fieldsOfWord_wordOfOp, fieldsOfOp, Instr.opcode, Instr.operands,
      Machine.operandLengths, lengthsIn_writeBits, written, lengthsIn]

theorem readBitRun_inverts {count : Nat} {stream rest : List Token} {v : BitVector}
    (h : readBitRun count stream = some (v, rest)) :
    v.length = count ∧ stream = v.map .bit ++ rest := by
  induction count generalizing stream v with
  | zero =>
    simp only [readBitRun, Option.some.injEq, Prod.mk.injEq] at h
    obtain ⟨rfl, rfl⟩ := h
    exact ⟨rfl, rfl⟩
  | succ count ih =>
    match stream with
    | [] => simp [readBitRun] at h
    | .value _ :: _ => simp [readBitRun] at h
    | .bit b :: stream =>
      simp only [readBitRun] at h
      split at h
      · rename_i v' after hv
        simp only [Option.some.injEq, Prod.mk.injEq] at h
        obtain ⟨rfl, rfl⟩ := h
        obtain ⟨hl, rfl⟩ := ih hv
        exact ⟨by simp [hl], by simp⟩
      · cases h

end Sys2Proof
end

