-- ==== Sys2Proof/Laws/Hamming.lean ====
section
/-! SUPPORT. What the checks of the Hamming commands and of DIFF can answer, said once, and the lengths of the words they build. -/

namespace Sys2Proof.Machine

theorem overCapacity_unbounded (w n : Nat) : overCapacity ⟨none, w⟩ n = false := rfl

theorem overCapacity_iff (c : Config) (n : Nat) :
    overCapacity c n = true ↔ ∃ bound, c.nMax = some bound ∧ bound < n := by
  unfold overCapacity
  split <;> simp_all

/-- A shorter length is over capacity only if the longer one is (R67). -/
theorem overCapacity_mono {c : Config} {m n : Nat} (h : m ≤ n)
    (hn : overCapacity c n = false) : overCapacity c m = false := by
  unfold overCapacity at *
  split at hn
  · rfl
  · simp only [decide_eq_false_iff_not] at hn ⊢
    omega

theorem deriveParameters_cases (m : Nat) :
    (m = 0 ∧ deriveParameters m = .error .invalidMessageLength)
      ∨ (1 ≤ m ∧ deriveParameters m = .ok ⟨m, searchR m m 1, m + searchR m m 1⟩) := by
  unfold deriveParameters
  split
  · exact .inl ⟨by omega, rfl⟩
  · exact .inr ⟨by omega, rfl⟩

/-- HPARAM's working state is one of the two errors, or PAR within capacity (R82). -/
theorem hparamWork_cases (c : Config) (m : Nat) :
    hparamWork c m = .error .capacityExceeded
      ∨ (m = 0 ∧ hparamWork c m = .error .invalidMessageLength)
      ∨ (1 ≤ m ∧ overCapacity c (m + searchR m m 1) = false
        ∧ hparamWork c m
          = .ok { Work.fresh with par := ⟨m, searchR m m 1, m + searchR m m 1⟩ }) := by
  unfold hparamWork
  split
  · exact .inl rfl
  · obtain ⟨h, hd⟩ | ⟨h, hd⟩ := deriveParameters_cases m
    · exact .inr (.inl ⟨h, by rw [hd]⟩)
    · rw [hd]
      dsimp only
      split
      · exact .inl rfl
      · exact .inr (.inr ⟨h, by simp_all, rfl⟩)

/-- Steps 1 to 3 of decoding are one of the two length errors, or PAR, CW and SYN (R113). -/
theorem syndromeWork_cases (c : Config) (v : BitVector) :
    (overCapacity c v.length = true ∧ syndromeWork c v = .error .capacityExceeded)
      ∨ (overCapacity c v.length = false ∧ validN v.length = false
        ∧ syndromeWork c v = .error .invalidCodewordLength)
      ∨ (overCapacity c v.length = false ∧ validN v.length = true
        ∧ syndromeWork c v
          = .ok { Work.fresh with
              par := paramsOfLength v.length
              cw := v
              syn := syndrome v (bitlen v.length) }) := by
  cases h : overCapacity c v.length with
  | true => exact .inl ⟨rfl, by simp [syndromeWork, h]⟩
  | false =>
    cases hv : validN v.length with
    | false => exact .inr (.inl ⟨rfl, rfl, by simp [syndromeWork, h, hv]⟩)
    | true => exact .inr (.inr ⟨rfl, rfl, by simp [syndromeWork, h, hv, paramsOfLength]⟩)

/-- Correction leaves the word, flips one position of it, or gives up (R115, R116). -/
theorem correct_cases (w : Work) :
    (errorPosition w.syn = 0 ∧ correct w = .ok w)
      ∨ (1 ≤ errorPosition w.syn ∧ errorPosition w.syn ≤ w.par.n
        ∧ correct w = .ok { w with cw := flipAt w.cw (errorPosition w.syn) })
      ∨ (w.par.n < errorPosition w.syn
        ∧ correct w = .error (popcount (errorPosition w.syn))) := by
  unfold correct
  dsimp only
  split
  · exact .inl ⟨‹_›, rfl⟩
  · split
    · exact .inr (.inl ⟨by omega, ‹_›, rfl⟩)
    · exact .inr (.inr ⟨by omega, rfl⟩)

theorem diffWork_cases (c : Config) (a b : BitVector) :
    ((overCapacity c a.length = true ∨ overCapacity c b.length = true)
        ∧ diffWork c a b = .error .capacityExceeded)
      ∨ (overCapacity c a.length = false ∧ overCapacity c b.length = false
        ∧ diffWork c a b = .ok { Work.fresh with cnt := countDifferences a b }) := by
  unfold diffWork
  split
  · exact .inl ⟨by simp_all, rfl⟩
  · exact .inr ⟨by simp_all, by simp_all, rfl⟩

theorem length_placeFrom (j count : Nat) (data : BitVector) :
    (placeFrom j count data).length = count := by
  induction count generalizing j data with
  | zero => rfl
  | succ count ih => unfold placeFrom; split <;> simp [ih]

@[simp] theorem length_place (n : Nat) (data : BitVector) : (place n data).length = n :=
  length_placeFrom 1 n data

@[simp] theorem length_flipAt (v : BitVector) (j : Nat) : (flipAt v j).length = v.length := by
  simp [flipAt]

theorem setParities_succ (c : BitVector) (r : Nat) :
    setParities c (r + 1)
      = setAt (setParities c r) (2 ^ r) (parityBit (setParities c r) r) := by
  simp [setParities, List.range_succ]

@[simp] theorem length_setParities (c : BitVector) (r : Nat) :
    (setParities c r).length = c.length := by
  induction r with
  | zero => rfl
  | succ r ih => rw [setParities_succ, length_setAt, ih]

@[simp] theorem length_extract (w : BitVector) :
    (extract w).length = (dataPositions w.length).length := by
  simp [extract]

@[simp] theorem length_syndrome (v : BitVector) (r : Nat) : (syndrome v r).length = r := by
  simp [syndrome]

end Sys2Proof.Machine
end

