-- ==== Sys2Proof/Laws/PerInstr.lean ====
section
/-! SUPPORT. Statements about every command as syntax, one lemma per constructor: its command word is one of the opcode map and selects exactly the operand fields the command has (spec/30_encoding.md R61, R63, R69). -/

namespace Sys2Proof.Laws.Encoding

/-- The operand fields of a command, by its constructor (R63). -/
def fieldTypes : Instr → List FieldType
  | .hparam _ => [.len]
  | .henc _ => [.bits]
  | .hsyn _ => [.bits]
  | .hdec _ => [.bits]
  | .bsc _ _ => [.bits, .prob]
  | .ge _ _ _ _ _ => [.bits, .prob, .prob, .prob, .prob]
  | .diff _ _ => [.bits, .bits]

/-- The command's word has RSV = 0000 and OP its opcode, and the decoder reads that word as a
command with exactly these operand fields. -/
def Statement (i : Instr) : Prop :=
  rsvOf (encode i).word = 0#4 ∧ opOf (encode i).word = i.opcode
    ∧ fieldsOfWord (encode i).word = some (fieldTypes i)

theorem of_opcode {i : Instr} (h : fieldsOfOp i.opcode = some (fieldTypes i)) : Statement i :=
  ⟨rsvOf_wordOfOp _, opOf_wordOfOp _, by rw [encode, fieldsOfWord_wordOfOp, h]⟩

theorem hparam (m : Nat) : Statement (.hparam m) := of_opcode (by simp [Instr.opcode, fieldsOfOp, fieldTypes])

theorem henc (data : BitVector) : Statement (.henc data) := of_opcode (by simp [Instr.opcode, fieldsOfOp, fieldTypes])

theorem hsyn (received : BitVector) : Statement (.hsyn received) := of_opcode (by simp [Instr.opcode, fieldsOfOp, fieldTypes])

theorem hdec (received : BitVector) : Statement (.hdec received) := of_opcode (by simp [Instr.opcode, fieldsOfOp, fieldTypes])

theorem bsc (bitsIn : BitVector) (ber : Nat) : Statement (.bsc bitsIn ber) := of_opcode (by simp [Instr.opcode, fieldsOfOp, fieldTypes])

theorem ge (bitsIn : BitVector) (pGB pBG pG pB : Nat) : Statement (.ge bitsIn pGB pBG pG pB) :=
  of_opcode (by simp [Instr.opcode, fieldsOfOp, fieldTypes])

theorem diff (a b : BitVector) : Statement (.diff a b) := of_opcode (by simp [Instr.opcode, fieldsOfOp, fieldTypes])

end Sys2Proof.Laws.Encoding
end

