-- ==== Sys2Proof/Tests/Slice0.lean ====
section
/-! SUPPORT. Tests of single steps and words against spec/95_test_vectors.md and the encodings of spec/30_encoding.md, the well-formedness smoke tests, and a witness for the hypotheses of every statement that has some. -/

namespace Sys2Proof.Tests

open Sys2Proof.Machine

/-- A block with unbounded N_MAX and PROB_W = 8, IDLE, with the given draws ready. -/
def ready (draws : List Nat) : State :=
  { State.reset with rnd := draws }

/-- The same block with a finite N_MAX. -/
def bounded (bound : Nat) : State :=
  State.resetWith ⟨some bound, 8⟩

/-- The state a step or a command answers. -/
def answered : Host.Outcome State Fault Refusal → Option State
  | .next t => some t
  | .fault _ => none
  | .refused _ => none

/-- The responses in the state a step or a command answers. -/
def responses (o : Host.Outcome State Fault Refusal) : Option (List Response) :=
  (answered o).map State.resp

/-- The codeword of [1,0,1,1] (R104). -/
def codeword7 : BitVector := [false, true, true, false, false, true, true]

/-- The codeword of [1,0] (R124). -/
def codeword5 : BitVector := [true, true, true, false, false]

/-! ### Well-formedness: every check refuses an ill-formed command -/

theorem test_wf_len_field : Instr.wellFormed ⟨some 15, 8⟩ (.hparam 15) = true
    ∧ Instr.wellFormed ⟨some 15, 8⟩ (.hparam 16) = false := by decide

theorem test_wf_bits_fields : Instr.wellFormed ⟨some 3, 8⟩ (.henc codeword5) = false
    ∧ Instr.wellFormed ⟨some 3, 8⟩ (.hsyn codeword5) = false
    ∧ Instr.wellFormed ⟨some 3, 8⟩ (.hdec codeword5) = false
    ∧ Instr.wellFormed ⟨some 3, 8⟩ (.bsc codeword5 0) = false
    ∧ Instr.wellFormed ⟨some 3, 8⟩ (.ge codeword5 0 0 0 0) = false
    ∧ Instr.wellFormed ⟨some 3, 8⟩ (.diff codeword5 []) = false
    ∧ Instr.wellFormed ⟨some 3, 8⟩ (.diff [] codeword5) = false := by decide

theorem test_wf_prob_fields : Instr.wellFormed ⟨none, 8⟩ (.bsc [] 511) = true
    ∧ Instr.wellFormed ⟨none, 8⟩ (.bsc [] 512) = false
    ∧ Instr.wellFormed ⟨none, 8⟩ (.ge [] 512 0 0 0) = false
    ∧ Instr.wellFormed ⟨none, 8⟩ (.ge [] 0 512 0 0) = false
    ∧ Instr.wellFormed ⟨none, 8⟩ (.ge [] 0 0 512 0) = false
    ∧ Instr.wellFormed ⟨none, 8⟩ (.ge [] 0 0 0 512) = false := by decide

theorem test_config_legal : Config.standard.legal = true ∧ Config.legal ⟨some 2, 8⟩ = false
    ∧ Config.legal ⟨none, 0⟩ = false := by decide

/-! ### Words written out bit by bit from R61 and R69, operand fields from R63 and R66 -/

theorem test_decode_hparam : decode ⟨0b00000001#8, [.value 4]⟩ = .ok (.hparam 4) := by rfl

theorem test_decode_henc :
    decode ⟨0b00000010#8, [.value 4, .bit true, .bit false, .bit true, .bit true]⟩
      = .ok (.henc [true, false, true, true]) := by rfl

theorem test_decode_hsyn : decode ⟨0b00000011#8, [.value 3, .bit true, .bit true, .bit false]⟩
    = .ok (.hsyn [true, true, false]) := by rfl

theorem test_decode_hdec : decode ⟨0b00000100#8, [.value 3, .bit true, .bit false, .bit true]⟩
    = .ok (.hdec [true, false, true]) := by rfl

theorem test_decode_bsc : decode ⟨0b00000101#8, [.value 1, .bit true, .value 26]⟩
    = .ok (.bsc [true] 26) := by rfl

theorem test_decode_ge :
    decode ⟨0b00000110#8, [.value 1, .bit false, .value 64, .value 128, .value 0, .value 192]⟩
      = .ok (.ge [false] 64 128 0 192) := by rfl

theorem test_decode_diff :
    decode ⟨0b00000111#8, [.value 2, .bit true, .bit false, .value 1, .bit true]⟩
      = .ok (.diff [true, false] [true]) := by rfl

/-- X1, X2, X4, X6: reserved words, whatever is on OPERANDS. -/
theorem test_decode_reserved : decode ⟨0x00#8, [.value 4]⟩ = .error .invalidCommand
    ∧ decode ⟨0x08#8, []⟩ = .error .invalidCommand
    ∧ decode ⟨0x12#8, [.value 0]⟩ = .error .invalidCommand
    ∧ decode ⟨0x80#8, []⟩ = .error .invalidCommand := by
  refine ⟨?_, ?_, ?_, ?_⟩ <;> rfl

theorem test_decode_malformed : decode ⟨0x02#8, [.value 2, .bit true]⟩ = .error .malformedOperands
    ∧ decode ⟨0x01#8, [.value 4, .value 4]⟩ = .error .malformedOperands := by
  refine ⟨?_, ?_⟩ <;> rfl

theorem test_table_rows : (List.range 9).map (decodeTableWord 8)
    = [none, some (.hparam 0), some (.henc []), some (.hsyn []), some (.hdec []),
        some (.bsc [] 0), some (.ge [] 0 0 0 0), some (.diff [] []), none] := by decide

/-- The first step after reset runs the command placed for it (E1, B5, D9 with BER = 0). -/
theorem test_fetch_word_runs :
    responses (step (State.reset.withFetchWord 8 2)) = some [.bare .invalidMessageLength]
    ∧ responses (step (State.reset.withFetchWord 8 5)) = some [.transmitted [] 0]
    ∧ responses (step (State.reset.withFetchWord 8 4)) = some [.bare .invalidCodewordLength] := by
  decide

/-! ### One command each, from spec/95_test_vectors.md -/

/-- H5, H6. -/
theorem test_hparam : responses (exec (.hparam 4) State.reset) = some [.params 3 7]
    ∧ responses (exec (.hparam 5) State.reset) = some [.params 4 9] := by decide

/-- H17, H18. -/
theorem test_hparam_capacity :
    responses (exec (.hparam 12) (bounded 15)) = some [.bare .capacityExceeded]
    ∧ responses (exec (.hparam 16) (bounded 15)) = some [.bare .capacityExceeded] := by decide

/-- R67: a LEN value above N_MAX is answered before the form of the operand fields is looked at. -/
theorem test_capacity_before_form :
    [(⟨0x01#8, [.value 16, .value 0]⟩ : Offer), ⟨0x05#8, writeBits (newVector 16)⟩,
        ⟨0x07#8, [.value 1, .bit true, .value 16]⟩].map
      (fun o => responses (step { bounded 15 with cmd := [o] }))
      = List.replicate 3 (some [.bare .capacityExceeded]) := by decide

/-- R67: without a LEN value above N_MAX a transaction with other fields is no command (log 8). -/
theorem test_malformed_within_capacity :
    responses (step { bounded 15 with cmd := [⟨0x01#8, [.value 15, .value 0]⟩] }) = none := by
  decide

/-- E9. -/
theorem test_henc : responses (exec (.henc [true, false, true, true]) State.reset)
    = some [.encoded codeword7] := by decide

/-- E11. -/
theorem test_henc_length_9 : responses (exec (.henc [true, false, true, true, false]) State.reset)
    = some [.encoded [false, true, true, false, false, true, true, false, false]] := by decide

/-- Y4, Y6. -/
theorem test_hsyn :
    responses (exec (.hsyn [false, true, true, false, true, true, true]) State.reset)
      = some [.syndrome 5 2]
    ∧ responses (exec (.hsyn [true, false, true, true, false]) State.reset)
      = some [.syndrome 6 2] := by decide

/-- Y11, Y12. -/
theorem test_hsyn_length : responses (exec (.hsyn [false, false, false, false]) State.reset)
      = some [.bare .invalidCodewordLength]
    ∧ responses (exec (.hsyn [true, true]) State.reset) = some [.bare .invalidCodewordLength] := by
  decide

/-- D6, D35: one error corrected, two miscorrected without a sign. -/
theorem test_hdec :
    responses (exec (.hdec [false, true, true, false, true, true, true]) State.reset)
      = some [.decoded [true, false, true, true]]
    ∧ responses (exec (.hdec [false, true, false, false, true, true, true]) State.reset)
      = some [.decoded [false, true, false, true]] := by decide

/-- D25, D27. -/
theorem test_hdec_uncorrectable :
    responses (exec (.hdec [true, false, true, true, false]) State.reset)
      = some [.uncorrectable 2]
    ∧ responses (exec (.hdec [true, true, false, true, false]) State.reset)
      = some [.uncorrectable 3] := by decide

/-- The responses of E2 and D25 and of HDEC giving [1,0], as they leave on RESP: STATUS, then the valid fields. -/
theorem test_response_transfer :
    (Response.encoded [true, true, true]).transfer
      = [.value 0, .value 3, .bit true, .bit true, .bit true]
    ∧ (Response.uncorrectable 2).transfer = [.value 4, .value 2]
    ∧ (Response.decoded [true, false]).transfer
      = [.value 0, .value 2, .bit true, .bit false, .value 0] := by decide

/-- B3, with two draws left on the stream. -/
theorem test_bsc :
    answered (exec (.bsc codeword7 26) (ready [200, 25, 26, 0, 255, 100, 13, 7, 8]))
      = some { ready [7, 8] with
          resp := [.transmitted [false, false, true, true, false, true, false] 3] } := by decide

/-- B6, B11: capacity comes before the probability check, and no draw is pulled. -/
theorem test_bsc_errors :
    answered (exec (.bsc codeword7 257) (ready [1]))
      = some { ready [1] with resp := [.bare .invalidParameter] }
    ∧ responses (exec (.bsc (newVector 16) 300) (bounded 15))
      = some [.bare .capacityExceeded] := by decide

/-- G1. -/
theorem test_ge :
    answered (exec (.ge codeword7 64 128 0 192)
        (ready [10, 63, 100, 200, 191, 127, 192, 128, 5, 255, 0, 64, 250, 0]))
      = some { ready [] with
          resp := [.transmitted [false, false, false, false, false, true, true] 2] } := by decide

/-- G3 on its first three positions, with the last transition draw missing: the block waits, and
the draw that arrives ends the command (R196). -/
theorem test_ge_waits :
    (answered (exec (.ge [false, true, true] 256 256 0 256) (ready [0, 255, 0, 255, 0]))).map
        (fun t => (t.resp, responses (step { t with rnd := [255] })))
      = some ([], some [.transmitted [false, false, true] 1]) := by decide

/-- F4, F6. -/
theorem test_diff :
    responses (exec (.diff [true, false, true, true] [false, true, false, false]) State.reset)
      = some [.counted 4]
    ∧ responses (exec (.diff [true, false, true, true] [true, true]) State.reset)
      = some [.counted 3] := by decide

/-! ### Witnesses: for every statement with hypotheses, a case that meets them, at boundary values
where a statement has clauses -/

/-- A BSC of two bits that has made its first decision and waits for its second draw. -/
def waiting : State :=
  { State.reset with
    seq := .busy (.bsc [true, false] 128) { Work.fresh with cw := [false, false], idx := 2, flipped := 1 }
    cmd := [⟨0x01#8, [.value 4]⟩] }

theorem witness_EncodeOfDecodeIsTheTransaction :
    decode ⟨0x01#8, [.value 4]⟩ = .ok (.hparam 4) := by rfl

theorem witness_EveryCommandWordIsAccountedFor :
    (1 ≤ (0x01#8).toNat ∧ (0x01#8).toNat ≤ 7) ∧ (1 ≤ (0x07#8).toNat ∧ (0x07#8).toNat ≤ 7)
    ∧ decode ⟨0x01#8, [.value 0]⟩ = .ok (.hparam 0)
    ∧ ¬ (1 ≤ (0x00#8).toNat ∧ (0x00#8).toNat ≤ 7) ∧ ¬ (1 ≤ (0x08#8).toNat ∧ (0x08#8).toNat ≤ 7)
    ∧ ¬ (1 ≤ (0xFF#8).toNat ∧ (0xFF#8).toNat ≤ 7) := by
  refine ⟨by decide, by decide, by rfl, by decide, by decide, by decide⟩

theorem witness_StepRunsTheDecodedCommand :
    let s := { State.reset with cmd := [⟨0x01#8, [.value 4]⟩] }
    s.rst = false ∧ s.seq = .idle ∧ s.cmd = ⟨0x01#8, [.value 4]⟩ :: []
      ∧ decode ⟨0x01#8, [.value 4]⟩ = .ok (.hparam 4) := by
  refine ⟨?_, ?_, ?_, ?_⟩ <;> rfl

theorem witness_ReservedWordAnswersInvalidCommand :
    let s := fun w : CmdWord => { State.reset with cmd := [⟨w, [.value 9]⟩] }
    (s 0x12#8).rst = false ∧ (s 0x12#8).seq = .idle ∧ (s 0x12#8).cmd = ⟨0x12#8, [.value 9]⟩ :: []
      ∧ (0x12#8).extractLsb' 4 4 ≠ 0#4 ∧ (0x00#8).extractLsb' 0 4 = 0#4
      ∧ 8 ≤ ((0x08#8).extractLsb' 0 4).toNat ∧ 8 ≤ ((0x0F#8).extractLsb' 0 4).toNat := by decide

theorem witness_StepStopsOnlyOnMalformedOperands :
    let o : Offer := ⟨0x02#8, [.value 1]⟩
    let s := { State.reset with cmd := [o] }
    s.rst = false ∧ s.seq = .idle ∧ s.cmd = o :: []
      ∧ decode o = .error .malformedOperands
      ∧ (offeredLengths o).any (overCapacity s.config) = false
      ∧ step s = .refused .malformedOperands := by
  refine ⟨?_, ?_, ?_, ?_, ?_, ?_⟩ <;> rfl

/-- N_MAX = 15 and a LEN value of 16: HPARAM with a surplus number, BSC without its BER, and DIFF's B
behind an A of one bit. -/
theorem witness_LenAboveCapacityComesBeforeOperandForm :
    (bounded 15).config.nMax = some 15 ∧ 15 < 16 ∧ (bounded 15).rst = false
      ∧ (bounded 15).seq = .idle ∧ 1 ≤ (0x01#8).toNat ∧ (0x07#8).toNat ≤ 7
      ∧ decode ⟨0x01#8, [.value 16, .value 0]⟩ = .error .malformedOperands
      ∧ decode ⟨0x05#8, writeBits (newVector 16)⟩ = .error .malformedOperands
      ∧ decode ⟨0x07#8, .value ([true] : BitVector).length :: [true].map .bit ++ .value 16 :: []⟩
        = .error .malformedOperands := by
  refine ⟨?_, ?_, ?_, ?_, ?_, ?_, ?_, ?_, ?_⟩ <;> first | rfl | decide

theorem witness_IdleBlockWaitsForAnOffer :
    State.reset.rst = false ∧ State.reset.seq = .idle ∧ State.reset.cmd = [] := by decide

/-- One draw due: without it the command waits on, with exactly it and with one more it answers; the
working state is consistent. -/
theorem witness_BusyBlockAcceptsNoCommand :
    waiting.rst = false
      ∧ waiting.seq = .busy (.bsc [true, false] 128)
          { Work.fresh with cw := [false, false], idx := 2, flipped := 1 }
      ∧ drawsDue (.bsc [true, false] 128)
          { Work.fresh with cw := [false, false], idx := 2, flipped := 1 } = 1
      ∧ waiting.rnd.length < 1
      ∧ 1 ≤ { waiting with rnd := [5] }.rnd.length ∧ 1 ≤ { waiting with rnd := [5, 6] }.rnd.length
      ∧ Work.consistent (.bsc [true, false] 128)
          { Work.fresh with cw := [false, false], idx := 2, flipped := 1 } = true := by decide

theorem witness_StarvedCommandWaits :
    waiting.rst = false ∧ waiting.rnd = []
      ∧ waiting.seq = .busy (.bsc [true, false] 128)
          { Work.fresh with cw := [false, false], idx := 2, flipped := 1 }
      ∧ 2 ≤ (Channel.bsc [true, false] 128).bitsIn.length := by decide

theorem witness_ResetAbandonsTheCommandInFlight : { waiting with rst := true }.rst = true := by
  decide

theorem witness_ScheduledEventLandsAtItsPort :
    { State.reset with inputs := [.offer ⟨0x01#8, []⟩] }.inputs = .offer ⟨0x01#8, []⟩ :: []
      ∧ { State.reset with inputs := [.draw 0, .draw 255] }.inputs = .draw 0 :: [.draw 255]
      ∧ { State.reset with inputs := [.rst true] }.inputs = .rst true :: []
      ∧ State.reset.inputs = [] := by decide

theorem witness_DeriveParametersFindsTheLeastR : 1 ≤ 1 ∧ 1 + 2 + 1 ≤ 2 ^ 2 := by decide

/-- m = 1; n exactly N_MAX; n one and more above it; m itself above it. -/
theorem witness_HparamFollowsItsRule :
    1 ≤ 1 ∧ leastParityCount 1 2 = true ∧ overCapacity (bounded 3).config (1 + 2) = false
      ∧ leastParityCount 11 4 = true ∧ overCapacity (bounded 15).config (11 + 4) = false
      ∧ leastParityCount 12 5 = true ∧ overCapacity (bounded 16).config (12 + 5) = true
      ∧ leastParityCount 16 5 = true ∧ overCapacity (bounded 15).config 16 = true := by decide

theorem witness_ValidLengthsAreTheCodeLengths :
    validN 3 = true ∧ deriveParameters 1 = .ok ⟨1, 2, 3⟩ ∧ validN 4 = false := by
  refine ⟨by decide, by rfl, by decide⟩

theorem witness_CoverageSetIsTheSetBits : 2 ^ 2 ∈ cov 4 2 ∧ 2 ^ 0 ∈ cov 1 0 := by decide

theorem witness_PositionsSplitIntoParityAndData : validN 3 = true ∧ validN 17 = true := by decide

/-- The first column, the last one (j = n), and both of them as a pair. -/
theorem witness_CheckIsARowOfTheParityCheckMatrix :
    validN 3 = true ∧ 1 ≤ 1 ∧ 1 ≤ 3 ∧ 3 ≤ 3 ∧ 1 < 3 := by decide

/-- n exactly N_MAX, and one above it. -/
theorem witness_HencFollowsItsRule :
    ([true] : BitVector) ≠ [] ∧ leastParityCount ([true] : BitVector).length 2 = true
      ∧ overCapacity (bounded 3).config (([true] : BitVector).length + 2) = false
      ∧ ([true, false] : BitVector) ≠ []
      ∧ leastParityCount ([true, false] : BitVector).length 3 = true
      ∧ overCapacity (bounded 4).config (([true, false] : BitVector).length + 3) = true := by decide

theorem witness_HencEstablishesTheCodewordInvariant :
    exec (.henc [true, false, true, true]) State.reset
      = .next { State.reset with
          seq := .idle, resp := State.reset.resp ++ [.encoded codeword7] } := by rfl

theorem witness_CodewordIsDeterminedByItsData :
    isCodeword codeword7 = true ∧ isCodeword codeword5 = true
      ∧ extract codeword7 = extract codeword7 := by decide

theorem witness_EncodingIsLinear :
    ([true, false] : BitVector).length = ([false, true] : BitVector).length
      ∧ exec (.henc [true, false]) State.reset
        = .next { State.reset with seq := .idle, resp := State.reset.resp ++ [.encoded codeword5] }
      ∧ exec (.henc [false, true]) State.reset
        = .next { State.reset with
            seq := .idle
            resp := State.reset.resp ++ [.encoded [true, false, false, true, true]] } := by
  refine ⟨by decide, by rfl, by rfl⟩

/-- No length from 3 on that lies strictly between two powers of two is a power of two. -/
theorem not_two_pow {n i : Nat} (low : 2 ^ i < n) (high : n < 2 ^ (i + 1)) (k : Nat) :
    n ≠ 2 ^ k := by
  rintro rfl
  have h1 := (Nat.pow_lt_pow_iff_right (by decide : 1 < 2)).1 low
  have h2 := (Nat.pow_lt_pow_iff_right (by decide : 1 < 2)).1 high
  omega

/-- Over capacity; the lengths 0 and 2 below 3; the powers of two 4 and 16 (one within N_MAX); the
valid lengths 3 and 5, each exactly N_MAX. -/
theorem witness_HsynFollowsItsRule :
    overCapacity (bounded 15).config (newVector 16).length = true
      ∧ overCapacity (bounded 15).config (newVector 0).length = false ∧ (newVector 0).length < 3
      ∧ (newVector 2).length < 3 ∧ (newVector 4).length = 2 ^ 2
      ∧ overCapacity (bounded 16).config (newVector 16).length = false
      ∧ (newVector 16).length = 2 ^ 4
      ∧ overCapacity (bounded 3).config (newVector 3).length = false ∧ 3 ≤ (newVector 3).length
      ∧ (∀ k, (newVector 3).length ≠ 2 ^ k)
      ∧ overCapacity (bounded 5).config codeword5.length = false ∧ 3 ≤ codeword5.length
      ∧ ∀ k, codeword5.length ≠ 2 ^ k := by
  refine ⟨?_, ?_, ?_, ?_, ?_, ?_, ?_, ?_, ?_, not_two_pow (i := 1) ?_ ?_, ?_, ?_,
    not_two_pow (i := 2) ?_ ?_⟩ <;> decide

/-- Over capacity; lengths 2 and 4; at length 5, exactly N_MAX: e = 0, e = n, and the first e beyond
n (R124). -/
theorem witness_HdecFollowsItsRule :
    overCapacity (bounded 15).config (newVector 16).length = true
      ∧ overCapacity (bounded 15).config (newVector 2).length = false ∧ (newVector 2).length < 3
      ∧ (newVector 4).length = 2 ^ 2
      ∧ overCapacity (bounded 5).config codeword5.length = false ∧ 3 ≤ codeword5.length
      ∧ (∀ k, codeword5.length ≠ 2 ^ k) ∧ spellsChecks 0 codeword5 = true
      ∧ spellsChecks 5 [true, true, true, false, true] = true
      ∧ spellsChecks 6 [true, false, true, true, false] = true := by
  refine ⟨?_, ?_, ?_, ?_, ?_, ?_, not_two_pow (i := 2) ?_ ?_, ?_, ?_, ?_⟩ <;> decide

theorem witness_CorrectionGivesACodeword :
    validN 5 = true ∧ spellsChecks 5 [true, true, true, false, true] = true ∧ 1 ≤ 5 ∧ 5 ≤ 5
      ∧ spellsChecks 1 [false, true, true, false, false] = true := by decide

theorem witness_UncorrectableHasTwoFailedChecks :
    exec (.hdec [true, false, true, true, false]) State.reset
      = .next { State.reset with
          seq := .idle, resp := State.reset.resp ++ [.uncorrectable 2] } := by rfl

theorem witness_AtMostOneErrorIsCorrected :
    { ready [7] with resp := [.counted 1] }.config = State.reset.config
      ∧ exec (.henc [true, false]) State.reset
        = .next { State.reset with seq := .idle, resp := State.reset.resp ++ [.encoded codeword5] }
      ∧ 1 ≤ 1 ∧ 1 ≤ codeword5.length ∧ 5 ≤ codeword5.length := by
  refine ⟨by rfl, by rfl, by decide, by decide, by decide⟩

theorem witness_TwoErrorsPointElsewhere :
    isCodeword codeword5 = true ∧ 1 ≤ 1 ∧ 1 < 5 ∧ 5 ≤ codeword5.length := by decide

theorem witness_FullLengthWordsAlwaysDecode :
    2 ≤ 2 ∧ (newVector 3).length = 2 ^ 2 - 1
      ∧ overCapacity (bounded 3).config (newVector 3).length = false := by decide

/-- Over capacity; the smallest illegal BER; BER at both ends of its legal range. -/
theorem witness_BscFollowsItsRule :
    overCapacity (bounded 3).config codeword5.length = true
      ∧ overCapacity State.reset.config ([true] : BitVector).length = false
      ∧ 2 ^ State.reset.config.probW < 257
      ∧ 0 ≤ 2 ^ State.reset.config.probW ∧ 256 ≤ 2 ^ State.reset.config.probW
      ∧ (ready [3, 9]).rnd = [3] ++ [9] ∧ [3].length = ([true] : BitVector).length := by decide

theorem witness_BscAtTheTwoEnds :
    overCapacity State.reset.config ([true, false] : BitVector).length = false
      ∧ (ready [0, 255, 9]).rnd = [0, 255] ++ [9]
      ∧ [0, 255].length = ([true, false] : BitVector).length
      ∧ ∀ u ∈ [0, 255], u < 2 ^ State.reset.config.probW := by decide

/-- The smallest illegal value, in each of the four places. -/
theorem witness_ChannelsRejectAProbabilityAboveOne :
    overCapacity State.reset.config codeword5.length = false
      ∧ 2 ^ State.reset.config.probW < 257 ∧ ¬ 2 ^ State.reset.config.probW < 256 := by decide

/-- Over capacity; the smallest illegal value; legal values up to 2^PROB_W. -/
theorem witness_GeFollowsItsRule :
    overCapacity (bounded 3).config codeword5.length = true
      ∧ overCapacity State.reset.config ([true, false] : BitVector).length = false
      ∧ 2 ^ State.reset.config.probW < 257
      ∧ 64 ≤ 2 ^ State.reset.config.probW ∧ 256 ≤ 2 ^ State.reset.config.probW
      ∧ (ready [10, 63, 100, 200, 9]).rnd = pullOrder [(10, 63), (100, 200)] ++ [9]
      ∧ [(10, 63), (100, 200)].length = ([true, false] : BitVector).length := by decide

theorem witness_GeWithoutTransitionsIsABsc :
    overCapacity State.reset.config ([true, false] : BitVector).length = false
      ∧ 0 ≤ 2 ^ State.reset.config.probW ∧ 26 ≤ 2 ^ State.reset.config.probW
      ∧ 255 ≤ 2 ^ State.reset.config.probW
      ∧ (ready [200, 0, 25, 0]).rnd = pullOrder [(200, 0), (25, 0)] ++ []
      ∧ [(200, 0), (25, 0)].length = ([true, false] : BitVector).length
      ∧ ready [200, 25]
        = { ready [200, 0, 25, 0] with rnd := [(200, 0), (25, 0)].map Prod.fst } := by decide

theorem witness_GeWithoutFlipsPassesTheWord :
    overCapacity State.reset.config ([true] : BitVector).length = false
      ∧ 256 ≤ 2 ^ State.reset.config.probW ∧ 0 ≤ 2 ^ State.reset.config.probW
      ∧ (ready [0, 0, 9]).rnd = [0, 0] ++ [9]
      ∧ [0, 0].length = 2 * ([true] : BitVector).length := by decide

/-- An odd and an even position, for probabilities inside the range and at its two ends. -/
theorem witness_GeWithCertainTransitionsAlternates :
    overCapacity State.reset.config ([true, false] : BitVector).length = false
      ∧ 26 ≤ 2 ^ State.reset.config.probW ∧ 0 ≤ 2 ^ State.reset.config.probW
      ∧ 256 ≤ 2 ^ State.reset.config.probW ∧ 256 = 2 ^ State.reset.config.probW
      ∧ (ready [0, 255, 255, 0, 9]).rnd = pullOrder [(0, 255), (255, 0)] ++ [9]
      ∧ [(0, 255), (255, 0)].length = ([true, false] : BitVector).length
      ∧ (∀ pair ∈ [(0, 255), (255, 0)], pair.2 < 2 ^ State.reset.config.probW)
      ∧ ∀ pair ∈ [(0, 255), (255, 0)], pair.1 < 2 ^ State.reset.config.probW := by decide

theorem witness_FlippedCountsTheDifferences :
    exec (.bsc [true] 256) (ready [0])
        = .next { ready [] with resp := [.transmitted [false] 1] }
      ∧ exec (.ge [true] 0 0 256 0) (ready [9, 9])
        = .next { ready [] with resp := [.transmitted [false] 1] } := by
  refine ⟨by rfl, by rfl⟩

theorem witness_ChannelStaysBusyWithoutItsDraws :
    channelError State.reset.config (.bsc [true] 256) = none
      ∧ (ready []).rnd.length < drawsOf (.bsc [true] 256)
      ∧ channelError State.reset.config (.ge [true] 0 0 256 0) = none
      ∧ (ready [9]).rnd.length < drawsOf (.ge [true] 0 0 256 0) := by decide

theorem witness_LateDrawsGiveTheSameOutcome :
    ({ State.reset with rnd := [9] }.transmit (.ge [true] 0 0 256 0)
        (Channel.start (.ge [true] 0 0 256 0))).seq
      = .busy (.ge [true] 0 0 256 0)
          { Work.fresh with cw := [false], phase := .transition, flipped := 1 } := by decide

/-- BSC and GE, each with no draw and with all but the last; the late draws just suffice. -/
theorem witness_LateDrawsAnswerAsIfReady :
    channelError State.reset.config (.bsc [true, false] 256) = none
      ∧ ([] : List Nat).length < drawsOf (.bsc [true, false] 256)
      ∧ [9].length < drawsOf (.bsc [true, false] 256)
      ∧ drawsOf (.bsc [true, false] 256) ≤ ([9] ++ [3]).length
      ∧ channelError State.reset.config (.ge [true] 0 0 256 0) = none
      ∧ ([] : List Nat).length < drawsOf (.ge [true] 0 0 256 0)
      ∧ [9].length < drawsOf (.ge [true] 0 0 256 0)
      ∧ drawsOf (.ge [true] 0 0 256 0) ≤ ([9] ++ [3]).length
      ∧ State.reset.rst = false := by decide

theorem witness_DifferenceCountLaws : countDifferences codeword5 codeword5 = 0 := by decide

/-- An OK response, an error and Uncorrectable. -/
theorem witness_DrawsPulledAreFixedByTheCommand :
    exec (.bsc [true] 256) (ready [0, 5])
        = .next { ready [5] with resp := (ready [0, 5]).resp ++ [.transmitted [false] 1] }
      ∧ (Response.transmitted [false] 1).status = .ok
      ∧ exec (.bsc [true] 257) (ready [0, 5])
        = .next { ready [0, 5] with resp := (ready [0, 5]).resp ++ [.bare .invalidParameter] }
      ∧ (Response.bare .invalidParameter).status ≠ .ok := by
  refine ⟨by rfl, by rfl, by rfl, by decide⟩

theorem witness_AnErrorStatusHasNoOtherEffect :
    exec (.hdec [true, false, true, true, false]) State.reset
        = .next { State.reset with resp := State.reset.resp ++ [.uncorrectable 2] }
      ∧ (Response.uncorrectable 2).status ≠ .ok := by
  refine ⟨by rfl, by decide⟩

theorem witness_ResponsesCarryTheirValidFields :
    exec (.hdec [true, true, true]) State.reset
        = .next { State.reset with resp := State.reset.resp ++ [.decoded [true]] }
      ∧ (Response.decoded [true]).status = .ok := by
  refine ⟨by rfl, by rfl⟩

theorem witness_EachCommandGivesOnlyItsStatuses :
    exec (.diff [true] []) State.reset
      = .next { State.reset with resp := State.reset.resp ++ [.counted 1] } := by rfl

/-- DIFF with its second operand over capacity; HSYN of a length that is also invalid; HENC and
HPARAM with n one above N_MAX; an unbounded block. -/
theorem witness_CapacityComesFirst :
    (bounded 3).config.nMax = some 3 ∧ 4 ∈ operandLengths (.diff [] (newVector 4)) ∧ 3 < 4
      ∧ 4 ∈ operandLengths (.hsyn (newVector 4))
      ∧ (bounded 4).config.nMax = some 4 ∧ ([true, false] : BitVector).length = 2 ∧ 1 ≤ 2
      ∧ leastParityCount 2 3 = true ∧ 4 < 2 + 3
      ∧ State.reset.config.nMax = none
      ∧ exec (.hparam 0) State.reset
        = .next { State.reset with resp := State.reset.resp ++ [.bare .invalidMessageLength] } := by
  refine ⟨?_, ?_, ?_, ?_, ?_, ?_, ?_, ?_, ?_, by rfl, by rfl⟩ <;> decide

/-- Two states with different histories: a response given, a command waiting. -/
theorem witness_ResponseIsIndependentOfHistory :
    (ready [7]).config = { waiting with rnd := [7] }.config
      ∧ (ready [7]).rnd = { waiting with rnd := [7] }.rnd
      ∧ (ready [7]).cmd ≠ { waiting with rnd := [7] }.cmd := by decide

/-- A sound block whose waiting command goes on and answers. -/
theorem witness_EveryStepKeepsTheBlockSound :
    waiting.sound = true ∧ { waiting with rnd := [5] }.sound = true
      ∧ step { waiting with rnd := [5] }
        = .next { waiting with seq := .idle, resp := [.transmitted [false, true] 2] } := by
  refine ⟨by decide, by decide, by rfl⟩

theorem witness_ResetStateIsSound : Config.legal ⟨some 3, 1⟩ = true
    ∧ Config.legal ⟨none, 1⟩ = true := by decide

end Sys2Proof.Tests
end

section
/-! PROOFS. What a command does is a function of its operands, the parameters and the draws that are ready, and of nothing else in the state (spec/10_state.md R20). -/

namespace Sys2Proof.Machine

variable {s t : State}

/-- A channel command whose draws suffice answers with what it built. -/
theorem State.transmit_of_finished {c : Channel} {w : Work}
    (h : c.finished (c.pull w s.rnd).1 = true) :
    s.transmit c w
      = { s with rnd := (c.pull w s.rnd).2 }.respond
          (.transmitted (c.pull w s.rnd).1.cw (c.pull w s.rnd).1.flipped) := by
  obtain ⟨-, hs⟩ | ⟨hf, -⟩ := s.transmit_cases c w
  · exact hs
  · simp [h] at hf

/-- A channel command whose draws do not suffice has pulled them all and waits (R196). -/
theorem State.transmit_of_not_finished {c : Channel} {w : Work}
    (h : c.finished (c.pull w s.rnd).1 = false) :
    s.transmit c w = { s with rnd := [], seq := .busy c (c.pull w s.rnd).1 } := by
  obtain ⟨hf, -⟩ | ⟨-, hs⟩ := s.transmit_cases c w
  · simp [h] at hf
  · exact hs

/-- A channel command whose operand checks fail gives their status and pulls nothing (R136, R153). -/
theorem State.startChannel_of_error {c : Channel} {status : Status}
    (h : channelError s.config c = some status) :
    s.startChannel c = s.respond (.bare status) := by
  simp [State.startChannel, h]

theorem State.startChannel_of_no_error {c : Channel} (h : channelError s.config c = none) :
    s.startChannel c = s.transmit c c.start := by
  simp [State.startChannel, h]

/-- `s` became `s'` and `t` became `t'` by one and the same effect: the same responses given, the
same sequencer and the same draws left, with the rest of each state as it was. -/
def SameEffect (s t s' t' : State) : Prop :=
  ∃ (given : List Response) (seq : Sequencer) (rnd : List Nat),
    s' = { s with resp := s.resp ++ given, seq := seq, rnd := rnd }
      ∧ t' = { t with resp := t.resp ++ given, seq := seq, rnd := rnd }

theorem sameEffect_respond (hrnd : s.rnd = t.rnd) (r : Response) :
    SameEffect s t (s.respond r) (t.respond r) :=
  ⟨[r], .idle, s.rnd, rfl, by rw [hrnd]; rfl⟩

theorem sameEffect_transmit (hrnd : s.rnd = t.rnd) (c : Channel) (w : Work) :
    SameEffect s t (s.transmit c w) (t.transmit c w) := by
  cases h : c.finished (c.pull w s.rnd).1 with
  | true =>
    rw [State.transmit_of_finished h, State.transmit_of_finished (hrnd ▸ h), ← hrnd]
    exact ⟨[_], .idle, (c.pull w s.rnd).2, rfl, rfl⟩
  | false =>
    rw [State.transmit_of_not_finished h, State.transmit_of_not_finished (hrnd ▸ h), ← hrnd]
    exact ⟨[], .busy c (c.pull w s.rnd).1, [], by simp, by simp⟩

/-- The operand checks look at the parameters only, so both states fail them with one status or
both run the command. -/
theorem sameEffect_startChannel (hconfig : s.config = t.config) (hrnd : s.rnd = t.rnd)
    (c : Channel) : SameEffect s t (s.startChannel c) (t.startChannel c) := by
  cases h : channelError s.config c with
  | some status =>
    rw [State.startChannel_of_error h, State.startChannel_of_error (hconfig ▸ h)]
    exact sameEffect_respond hrnd (.bare status)
  | none =>
    rw [State.startChannel_of_no_error h, State.startChannel_of_no_error (hconfig ▸ h)]
    exact sameEffect_transmit hrnd c c.start

/-- Every command of FEC-CORE is a response computed from the parameters, or a channel command run
from the start. -/
theorem exec_cases (i : Instr) :
    (∃ answer : Config → Response, ∀ s, exec i s = .next (s.respond (answer s.config)))
      ∨ ∃ c : Channel, ∀ s, exec i s = .next (s.startChannel c) := by
  cases i with
  | hparam m => exact .inl ⟨fun cfg => hparamResponse cfg m, fun _ => rfl⟩
  | henc data => exact .inl ⟨fun cfg => hencResponse cfg data, fun _ => rfl⟩
  | hsyn received => exact .inl ⟨fun cfg => hsynResponse cfg received, fun _ => rfl⟩
  | hdec received => exact .inl ⟨fun cfg => hdecResponse cfg received, fun _ => rfl⟩
  | bsc bitsIn ber => exact .inr ⟨.bsc bitsIn ber, fun _ => rfl⟩
  | ge bitsIn pGB pBG pG pB => exact .inr ⟨.ge bitsIn pGB pBG pG pB, fun _ => rfl⟩
  | diff a b => exact .inl ⟨fun cfg => diffResponse cfg a b, fun _ => rfl⟩

theorem exec_sameEffect (hconfig : s.config = t.config) (hrnd : s.rnd = t.rnd) (i : Instr) :
    ∃ s' t', exec i s = .next s' ∧ exec i t = .next t' ∧ SameEffect s t s' t' := by
  obtain ⟨answer, hexec⟩ | ⟨c, hexec⟩ := exec_cases i
  · exact ⟨_, _, hexec s, hexec t, hconfig ▸ sameEffect_respond hrnd (answer s.config)⟩
  · exact ⟨_, _, hexec s, hexec t, sameEffect_startChannel hconfig hrnd c⟩

/-- Settles O52: both states undergo the same effect, command by command. -/
theorem responseIsIndependentOfHistory : Obligations.ResponseIsIndependentOfHistory := by
  intro i s t hconfig hrnd
  obtain ⟨_, _, hs, ht, given, seq, rnd, rfl, rfl⟩ := exec_sameEffect hconfig hrnd i
  exact ⟨given, seq, rnd, hs, ht⟩

end Sys2Proof.Machine
end

section
/-! PROOFS. Every command word selects one command or gives InvalidCommand (spec/30_encoding.md R69 to R71). -/

namespace Sys2Proof

/-- The seven words of the opcode map are the words with operand fields to read (R69, R71). -/
theorem fieldsOfWord_eq_none_iff (w : CmdWord) :
    fieldsOfWord w = none ↔ ¬ (1 ≤ w.toNat ∧ w.toNat ≤ 7) := by
  revert w; decide

theorem opOf_eq_ofNat (w : CmdWord) : opOf w = BitVec.ofNat 4 w.toNat := rfl

theorem decode_eq_invalidCommand_iff (o : Offer) :
    decode o = .error .invalidCommand ↔ fieldsOfWord o.word = none := by
  unfold decode
  split
  · simp [*]
  · split <;> simp [*]

theorem eq_of_readEnd {i j : Instr} {stream : List Token} (h : readEnd i stream = some j) :
    j = i := by
  unfold readEnd at h
  split at h
  · exact (Option.some.inj h).symm
  · cases h

/-- What is assembled for an OP is a command of that OP (R69). -/
theorem opcode_of_assemble {op : Nat} {stream : List Token} {i : Instr}
    (h : assemble op stream = some i) : i.opcode = BitVec.ofNat 4 op := by
  unfold assemble at h
  split at h
  case h_8 => cases h
  all_goals simp only [bind, Option.bind_eq_some_iff, Prod.exists] at h
  case h_1 | h_2 | h_3 | h_4 => obtain ⟨_, _, _, h⟩ := h; rw [eq_of_readEnd h]; rfl
  case h_5 | h_7 => obtain ⟨_, _, _, _, _, _, h⟩ := h; rw [eq_of_readEnd h]; rfl
  case h_6 =>
    obtain ⟨_, _, _, _, _, _, _, _, _, _, _, _, _, _, _, h⟩ := h
    rw [eq_of_readEnd h]; rfl

theorem opcode_of_decode {o : Offer} {i : Instr} (h : decode o = .ok i) :
    i.opcode = opOf o.word := by
  unfold decode at h
  split at h
  · cases h
  · split at h
    · cases h
      rw [opcode_of_assemble ‹_›, BitVec.ofNat_toNat, BitVec.setWidth_eq]
    · cases h

/-- Settles O3: InvalidCommand comes exactly from the words without operand fields, and what a word
decodes to has the word's OP. -/
theorem everyCommandWordIsAccountedFor : Obligations.EveryCommandWordIsAccountedFor := by
  intro w operands
  have hinvalid := decode_eq_invalidCommand_iff ⟨w, operands⟩
  rw [fieldsOfWord_eq_none_iff] at hinvalid
  exact ⟨fun hw => ⟨fun h => hinvalid.1 h hw,
    fun i hi => (opcode_of_decode hi).trans (opOf_eq_ofNat w)⟩, hinvalid.2⟩

end Sys2Proof
end

section
/-! PROOFS. The number of failed checks is the popcount of the error position (spec/42_hamming_syndrome_decode.md R111, R112). -/

namespace Sys2Proof.Machine

/-- Bits beyond bitlen(s) are 0, so popcount may count over any width that holds s (R13). -/
theorem popcount_eq_countP_range {s width : Nat} (h : s < 2 ^ width) :
    popcount s = (List.range width).countP (bitOf s) := by
  obtain ⟨extra, rfl⟩ := Nat.exists_eq_add_of_le ((bitlen_le_iff s width).2 h)
  have hzero : ∀ k, bitOf s (bitlen s + k) = false := fun k => by
    rw [bitOf_eq_testBit]
    exact Nat.testBit_lt_two_pow (Nat.lt_of_lt_of_le (lt_two_pow_bitlen s)
      (Nat.pow_le_pow_right (by decide) (Nat.le_add_right _ k)))
  simp [popcount, List.range_add, hzero]

theorem bitOf_toNat_add_two_mul_zero (b : Bool) (n : Nat) : bitOf (b.toNat + 2 * n) 0 = b := by
  cases b <;> simp [bitOf]

theorem bitOf_toNat_add_two_mul_succ (b : Bool) (n i : Nat) :
    bitOf (b.toNat + 2 * n) (i + 1) = bitOf n i := by
  have hhalf : (b.toNat + 2 * n) / 2 = n := by have := b.toNat_le; omega
  rw [bitOf, bitOf, Nat.pow_succ', ← Nat.div_div_eq_div_mul, hhalf]

theorem popcount_toNat_add_two_mul (b : Bool) (n : Nat) :
    popcount (b.toNat + 2 * n) = b.toNat + popcount n := by
  have hlt : b.toNat + 2 * n < 2 ^ (bitlen n + 1) := by
    have := lt_two_pow_bitlen n
    have := b.toNat_le
    omega
  rw [popcount_eq_countP_range hlt, List.range_succ_eq_map, List.countP_cons, List.countP_map,
    bitOf_toNat_add_two_mul_zero, popcount]
  have hshift : bitOf (b.toNat + 2 * n) ∘ Nat.succ = bitOf n :=
    funext fun i => bitOf_toNat_add_two_mul_succ b n i
  rw [hshift]
  cases b <;> simp [Nat.add_comm]

/-- The number a syndrome spells has as many 1 bits as the syndrome has failed checks. -/
theorem popcount_errorPosition (syn : List Bool) :
    popcount (errorPosition syn) = syn.countP id := by
  induction syn with
  | nil => rfl
  | cons b syn ih =>
    rw [errorPosition, popcount_toNat_add_two_mul, ih, List.countP_cons]
    cases b <;> simp [Nat.add_comm]

theorem popcount_errorPosition_syndrome (v : BitVector) :
    popcount (errorPosition (syndrome v (bitlen v.length))) = failedChecks v := by
  rw [popcount_errorPosition, syndrome, List.countP_map]
  rfl

end Sys2Proof.Machine
end

section
/-! PROOFS. What each command can answer, said once, and which response fields are then valid (spec/30_encoding.md R63, R68). -/

namespace Sys2Proof.Machine

variable {cfg : Config} {s t : State} {i : Instr} {r : Response}

theorem exec_hparam (m : Nat) (s : State) :
    exec (.hparam m) s = .next (s.respond (hparamResponse s.config m)) := rfl
theorem exec_henc (data : BitVector) (s : State) :
    exec (.henc data) s = .next (s.respond (hencResponse s.config data)) := rfl
theorem exec_hsyn (received : BitVector) (s : State) :
    exec (.hsyn received) s = .next (s.respond (hsynResponse s.config received)) := rfl
theorem exec_hdec (received : BitVector) (s : State) :
    exec (.hdec received) s = .next (s.respond (hdecResponse s.config received)) := rfl
theorem exec_bsc (bitsIn : BitVector) (ber : Nat) (s : State) :
    exec (.bsc bitsIn ber) s = .next (s.startChannel (.bsc bitsIn ber)) := rfl
theorem exec_ge (bitsIn : BitVector) (pGB pBG pG pB : Nat) (s : State) :
    exec (.ge bitsIn pGB pBG pG pB) s = .next (s.startChannel (.ge bitsIn pGB pBG pG pB)) := rfl
theorem exec_diff (a b : BitVector) (s : State) :
    exec (.diff a b) s = .next (s.respond (diffResponse s.config a b)) := rfl

/-- The responses a command can give in a block of the given parameters. CapacityExceeded needs a
length above N_MAX, each length error needs the length it names, and an uncorrectable word reports
its failed checks. -/
inductive Answers (cfg : Config) : Instr → Response → Prop
  | capacityExceeded {i : Instr} {n : Nat} (hover : overCapacity cfg n = true) :
    Answers cfg i (.bare .capacityExceeded)
  | hparamEmpty {m : Nat} (hm : m = 0) : Answers cfg (.hparam m) (.bare .invalidMessageLength)
  | params (m r n : Nat) : Answers cfg (.hparam m) (.params r n)
  | hencEmpty {data : BitVector} (hlen : data.length = 0) :
    Answers cfg (.henc data) (.bare .invalidMessageLength)
  | encoded (data codeword : BitVector) : Answers cfg (.henc data) (.encoded codeword)
  | hsynLength {v : BitVector} (hlen : validN v.length = false) :
    Answers cfg (.hsyn v) (.bare .invalidCodewordLength)
  | syndrome (v : BitVector) (errpos failed : Nat) :
    Answers cfg (.hsyn v) (.syndrome errpos failed)
  | hdecLength {v : BitVector} (hlen : validN v.length = false) :
    Answers cfg (.hdec v) (.bare .invalidCodewordLength)
  | uncorrectable (v : BitVector) : Answers cfg (.hdec v) (.uncorrectable (failedChecks v))
  | decoded (v data : BitVector) : Answers cfg (.hdec v) (.decoded data)
  | bscProbability (bits : BitVector) (ber : Nat) :
    Answers cfg (.bsc bits ber) (.bare .invalidParameter)
  | bscTransmitted (bits : BitVector) (ber : Nat) (out : BitVector) (flipped : Nat) :
    Answers cfg (.bsc bits ber) (.transmitted out flipped)
  | geProbability (bits : BitVector) (pGB pBG pG pB : Nat) :
    Answers cfg (.ge bits pGB pBG pG pB) (.bare .invalidParameter)
  | geTransmitted (bits : BitVector) (pGB pBG pG pB : Nat) (out : BitVector) (flipped : Nat) :
    Answers cfg (.ge bits pGB pBG pG pB) (.transmitted out flipped)
  | counted (a b : BitVector) (count : Nat) : Answers cfg (.diff a b) (.counted count)

/-- HPARAM finds a length above N_MAX whenever it answers CapacityExceeded: M or n (R82). -/
theorem overCapacity_of_hparamWork_capacityExceeded {m : Nat}
    (h : hparamWork cfg m = .error .capacityExceeded) : ∃ n, overCapacity cfg n = true := by
  unfold hparamWork at h
  split at h
  · exact ⟨m, ‹_›⟩
  · obtain ⟨-, hd⟩ | ⟨-, hd⟩ := deriveParameters_cases m
    · simp [hd] at h
    · simp only [hd] at h
      split at h
      · exact ⟨_, ‹_›⟩
      · cases h

theorem answers_hparamResponse (cfg : Config) (m : Nat) :
    Answers cfg (.hparam m) (hparamResponse cfg m) := by
  unfold hparamResponse
  obtain h | ⟨hzero, h⟩ | ⟨-, -, h⟩ := hparamWork_cases cfg m
  · obtain ⟨_, hover⟩ := overCapacity_of_hparamWork_capacityExceeded h
    rw [h]; exact .capacityExceeded hover
  · rw [h]; exact .hparamEmpty hzero
  · rw [h]; exact .params m _ _

theorem answers_hencResponse (cfg : Config) (data : BitVector) :
    Answers cfg (.henc data) (hencResponse cfg data) := by
  unfold hencResponse hencWork
  obtain h | ⟨hzero, h⟩ | ⟨-, -, h⟩ := hparamWork_cases cfg data.length
  · obtain ⟨_, hover⟩ := overCapacity_of_hparamWork_capacityExceeded h
    rw [h]; exact .capacityExceeded hover
  · rw [h]; exact .hencEmpty hzero
  · rw [h]; exact .encoded data _

theorem answers_hsynResponse (cfg : Config) (v : BitVector) :
    Answers cfg (.hsyn v) (hsynResponse cfg v) := by
  unfold hsynResponse
  obtain ⟨hover, h⟩ | ⟨-, hlen, h⟩ | ⟨-, -, h⟩ := syndromeWork_cases cfg v
  · rw [h]; exact .capacityExceeded hover
  · rw [h]; exact .hsynLength hlen
  · rw [h]; exact .syndrome v _ _

/-- HDEC gives up only with the count of the failed checks of the word it received (R116). -/
theorem answers_hdecResponse (cfg : Config) (v : BitVector) :
    Answers cfg (.hdec v) (hdecResponse cfg v) := by
  unfold hdecResponse
  obtain ⟨hover, h⟩ | ⟨-, hlen, h⟩ | ⟨-, -, h⟩ := syndromeWork_cases cfg v
  · rw [h]; exact .capacityExceeded hover
  · rw [h]; exact .hdecLength hlen
  · rw [h]
    dsimp only
    obtain ⟨-, hc⟩ | ⟨-, -, hc⟩ | ⟨-, hc⟩ := correct_cases
      { Work.fresh with
        par := paramsOfLength v.length, cw := v, syn := syndrome v (bitlen v.length) }
    · rw [hc]; exact .decoded v _
    · rw [hc]; exact .decoded v _
    · rw [hc, popcount_errorPosition_syndrome]; exact .uncorrectable v

theorem answers_diffResponse (cfg : Config) (a b : BitVector) :
    Answers cfg (.diff a b) (diffResponse cfg a b) := by
  unfold diffResponse
  obtain ⟨hover | hover, h⟩ | ⟨-, -, h⟩ := diffWork_cases cfg a b
  · rw [h]; exact .capacityExceeded hover
  · rw [h]; exact .capacityExceeded hover
  · rw [h]; exact .counted a b _

theorem channelError_eq_some {c : Channel} {status : Status}
    (h : channelError cfg c = some status) :
    (overCapacity cfg c.bitsIn.length = true ∧ status = .capacityExceeded)
      ∨ status = .invalidParameter := by
  unfold channelError at h
  split at h
  · exact .inl ⟨‹_›, (Option.some.inj h).symm⟩
  · split at h
    · exact .inr (Option.some.inj h).symm
    · cases h

/-- A channel command that answers gives the status its operand checks end with, or what it
transmitted. -/
theorem startChannel_answer {c : Channel} (h : (s.startChannel c).resp = s.resp ++ [r]) :
    (overCapacity s.config c.bitsIn.length = true ∧ r = .bare .capacityExceeded)
      ∨ r = .bare .invalidParameter
      ∨ ∃ out flipped, r = .transmitted out flipped := by
  obtain ⟨status, herr, hs⟩ | ⟨-, hs⟩ := s.startChannel_cases c
  · obtain rfl : Response.bare status = r := by simpa [hs] using h
    obtain ⟨hover, rfl⟩ | rfl := channelError_eq_some herr
    · exact .inl ⟨hover, rfl⟩
    · exact .inr (.inl rfl)
  · obtain ⟨-, ht⟩ | ⟨-, ht⟩ := s.transmit_cases c c.start
    · exact .inr (.inr ⟨_, _, by simpa [hs, ht] using h.symm⟩)
    · simp [hs, ht] at h

/-- The response added is the one that was given. -/
theorem answers_of_respond {answer : Response} (hexec : exec i s = .next (s.respond answer))
    (hanswer : Answers cfg i answer) (h : exec i s = .next t) (hr : t.resp = s.resp ++ [r]) :
    Answers cfg i r := by
  obtain rfl : s.respond answer = t := Host.Outcome.next.inj (hexec.symm.trans h)
  obtain rfl : answer = r := by simpa using hr
  exact hanswer

/-- A command answers nothing but the responses of its kind. -/
theorem exec_answers (h : exec i s = .next t) (hr : t.resp = s.resp ++ [r]) :
    Answers s.config i r := by
  cases i with
  | hparam m => exact answers_of_respond (exec_hparam m s) (answers_hparamResponse _ m) h hr
  | henc data => exact answers_of_respond (exec_henc data s) (answers_hencResponse _ data) h hr
  | hsyn v => exact answers_of_respond (exec_hsyn v s) (answers_hsynResponse _ v) h hr
  | hdec v => exact answers_of_respond (exec_hdec v s) (answers_hdecResponse _ v) h hr
  | diff a b => exact answers_of_respond (exec_diff a b s) (answers_diffResponse _ a b) h hr
  | bsc bits ber =>
    obtain rfl := Host.Outcome.next.inj ((exec_bsc bits ber s).symm.trans h)
    obtain ⟨hover, rfl⟩ | rfl | ⟨out, flipped, rfl⟩ := startChannel_answer hr
    · exact .capacityExceeded hover
    · exact .bscProbability bits ber
    · exact .bscTransmitted bits ber out flipped
  | ge bits pGB pBG pG pB =>
    obtain rfl := Host.Outcome.next.inj ((exec_ge bits pGB pBG pG pB s).symm.trans h)
    obtain ⟨hover, rfl⟩ | rfl | ⟨out, flipped, rfl⟩ := startChannel_answer hr
    · exact .capacityExceeded hover
    · exact .geProbability bits pGB pBG pG pB
    · exact .geTransmitted bits pGB pBG pG pB out flipped

theorem Answers.validFor (h : Answers cfg i r) : r.validFor i = true := by
  cases h <;> rfl

theorem Answers.failed_of_hdec_ok {v : BitVector} (h : Answers cfg (.hdec v) r)
    (hok : r.status = .ok) : r.failed = some 0 := by
  cases h with
  | decoded data => rfl
  | capacityExceeded hover => cases hok
  | hdecLength => cases hok
  | uncorrectable => cases hok

theorem Answers.eq_hdec_of_uncorrectable (h : Answers cfg i r)
    (hstatus : r.status = .uncorrectable) :
    ∃ v, i = .hdec v ∧ r.failed = some (failedChecks v) := by
  cases h with
  | uncorrectable v => exact ⟨v, rfl, rfl⟩
  | _ => cases hstatus

/-- Settles O48: the three parts hold of every response a command can give. -/
theorem responsesCarryTheirValidFields : Obligations.ResponsesCarryTheirValidFields := by
  intro i s t r h hr
  have hanswer := exec_answers h hr
  refine ⟨hanswer.validFor, ?_, hanswer.eq_hdec_of_uncorrectable⟩
  rintro v rfl
  exact hanswer.failed_of_hdec_ok

end Sys2Proof.Machine
end

section
/-! PROOFS. A length above N_MAX is examined before anything else (spec/30_encoding.md R67, spec/60_exceptions.md R176). -/

namespace Sys2Proof.Machine

variable {cfg : Config} {s : State} {i : Instr}

theorem hparamWork_of_overCapacity {m : Nat} (h : overCapacity cfg m = true) :
    hparamWork cfg m = .error .capacityExceeded := by
  simp [hparamWork, h]

theorem hparamResponse_of_error {m : Nat} {status : Status}
    (h : hparamWork cfg m = .error status) : hparamResponse cfg m = .bare status := by
  simp [hparamResponse, h]

theorem hencResponse_of_error {data : BitVector} {status : Status}
    (h : hparamWork cfg data.length = .error status) : hencResponse cfg data = .bare status := by
  simp [hencResponse, hencWork, h]

theorem syndromeWork_of_overCapacity {v : BitVector} (h : overCapacity cfg v.length = true) :
    syndromeWork cfg v = .error .capacityExceeded := by
  simp [syndromeWork, h]

theorem hsynResponse_of_overCapacity {v : BitVector} (h : overCapacity cfg v.length = true) :
    hsynResponse cfg v = .bare .capacityExceeded := by
  simp [hsynResponse, syndromeWork_of_overCapacity h]

theorem hdecResponse_of_overCapacity {v : BitVector} (h : overCapacity cfg v.length = true) :
    hdecResponse cfg v = .bare .capacityExceeded := by
  simp [hdecResponse, syndromeWork_of_overCapacity h]

theorem diffResponse_of_overCapacity {a b : BitVector}
    (h : overCapacity cfg a.length = true ∨ overCapacity cfg b.length = true) :
    diffResponse cfg a b = .bare .capacityExceeded := by
  simp [diffResponse, diffWork, h]

theorem channelError_of_overCapacity {c : Channel}
    (h : overCapacity cfg c.bitsIn.length = true) :
    channelError cfg c = some .capacityExceeded := by
  simp [channelError, h]

/-- A LEN operand above N_MAX ends the command with CapacityExceeded, whatever else is wrong (R67). -/
theorem exec_of_operand_overCapacity {len : Nat} (hmem : len ∈ operandLengths i)
    (h : overCapacity s.config len = true) :
    exec i s = .next (s.respond (.bare .capacityExceeded)) := by
  cases i with
  | hparam m =>
    obtain rfl := List.mem_singleton.1 hmem
    rw [exec_hparam, hparamResponse_of_error (hparamWork_of_overCapacity h)]
  | henc data =>
    obtain rfl := List.mem_singleton.1 hmem
    rw [exec_henc, hencResponse_of_error (hparamWork_of_overCapacity h)]
  | hsyn v =>
    obtain rfl := List.mem_singleton.1 hmem
    rw [exec_hsyn, hsynResponse_of_overCapacity h]
  | hdec v =>
    obtain rfl := List.mem_singleton.1 hmem
    rw [exec_hdec, hdecResponse_of_overCapacity h]
  | bsc bits ber =>
    obtain rfl := List.mem_singleton.1 hmem
    rw [exec_bsc, State.startChannel_of_error (channelError_of_overCapacity h)]
  | ge bits pGB pBG pG pB =>
    obtain rfl := List.mem_singleton.1 hmem
    rw [exec_ge, State.startChannel_of_error (channelError_of_overCapacity h)]
  | diff a b =>
    obtain rfl | rfl := List.mem_pair.1 hmem
    · rw [exec_diff, diffResponse_of_overCapacity (.inl h)]
    · rw [exec_diff, diffResponse_of_overCapacity (.inr h)]

theorem leastParityCount_iff (m r : Nat) :
    leastParityCount m r = true
      ↔ m + r + 1 ≤ 2 ^ r ∧ ∀ smaller < r, 2 ^ smaller < m + smaller + 1 := by
  simp [leastParityCount]

/-- The search of R81 stops at the least r, from any start not above it and with fuel to reach it. -/
theorem searchR_eq_of_leastParityCount {m r : Nat} (h : leastParityCount m r = true)
    (fuel start : Nat) (hstart : start ≤ r) (hfuel : r ≤ start + fuel) :
    searchR m fuel start = r := by
  obtain ⟨henough, hleast⟩ := (leastParityCount_iff m r).1 h
  induction fuel generalizing start with
  | zero => simp only [searchR]; omega
  | succ fuel ih =>
    by_cases hr : start = r
    · subst hr
      simp only [searchR]
      exact if_neg (by omega)
    · have hlt : start < r := by omega
      rw [searchR, if_pos (hleast start hlt)]
      exact ih (start + 1) hlt (by omega)

/-- One parity bit is not too many and m + 1 always suffice, so the search of R81 finds the least r
of R80. -/
theorem searchR_one_eq_of_leastParityCount {m r : Nat} (hm : 1 ≤ m)
    (h : leastParityCount m r = true) : searchR m m 1 = r := by
  obtain ⟨henough, hleast⟩ := (leastParityCount_iff m r).1 h
  have hpos : 1 ≤ r := by
    by_contra hr
    obtain rfl : r = 0 := by omega
    simp at henough
    omega
  have hle : r ≤ 1 + m := by
    by_contra hr
    have := hleast (m + 1) (by omega)
    have : m < 2 ^ m := Nat.lt_two_pow_self
    omega
  exact searchR_eq_of_leastParityCount h m 1 hpos hle

/-- A codeword length above N_MAX is refused, whether or not M itself is above it (R82, R100). -/
theorem hparamWork_of_result_overCapacity {m r : Nat} (hm : 1 ≤ m)
    (hr : leastParityCount m r = true) (h : overCapacity cfg (m + r) = true) :
    hparamWork cfg m = .error .capacityExceeded := by
  obtain hwork | ⟨hzero, -⟩ | ⟨-, hfits, -⟩ := hparamWork_cases cfg m
  · exact hwork
  · omega
  · rw [searchR_one_eq_of_leastParityCount hm hr, h] at hfits
    cases hfits

theorem Answers.status_ne_capacityExceeded {r : Response} (h : Answers cfg i r)
    (hunbounded : cfg.nMax = none) : r.status ≠ .capacityExceeded := by
  cases h with
  | capacityExceeded hover =>
    obtain ⟨bound, hbound, -⟩ := (overCapacity_iff _ _).1 hover
    simp [hunbounded] at hbound
  | _ => exact fun hstatus => by cases hstatus

/-- Settles O50: operands first, then the codeword length of HPARAM and HENC; with N_MAX unbounded
no length is above it. -/
theorem capacityComesFirst : Obligations.CapacityComesFirst := by
  refine ⟨?_, ?_, fun i s t r hunbounded h hr =>
    (exec_answers h hr).status_ne_capacityExceeded hunbounded⟩
  · intro i s bound len hbound hmem hlt
    exact exec_of_operand_overCapacity hmem ((overCapacity_iff _ _).2 ⟨bound, hbound, hlt⟩)
  · intro i s bound m r hbound hi hm hr hlt
    have hwork := hparamWork_of_result_overCapacity hm hr
      ((overCapacity_iff s.config _).2 ⟨bound, hbound, hlt⟩)
    obtain rfl | ⟨data, rfl, rfl⟩ := hi
    · rw [exec_hparam, hparamResponse_of_error hwork]; rfl
    · rw [exec_henc, hencResponse_of_error hwork]; rfl

end Sys2Proof.Machine
end

section
/-! PROOFS. The code parameters are the ones with the least r, and HPARAM answers with them (spec/40_hamming_params.md R80 to R82). -/

namespace Sys2Proof.Machine

variable {cfg : Config} {m r : Nat}

/-- 2^(m+1) ≥ m + (m+1) + 1, so the r of R80 exists, and a least one with it. -/
theorem exists_leastParityCount (m : Nat) : ∃ r, leastParityCount m r = true := by
  have henough : ∃ r, m + r + 1 ≤ 2 ^ r :=
    ⟨m + 1, by have : m < 2 ^ m := Nat.lt_two_pow_self; omega⟩
  exact ⟨Nat.find henough, (leastParityCount_iff m _).2
    ⟨Nat.find_spec henough, fun _ hsmaller => not_le.1 (Nat.find_min henough hsmaller)⟩⟩

theorem deriveParameters_zero : deriveParameters 0 = .error .invalidMessageLength := rfl

theorem deriveParameters_of_leastParityCount (hm : 1 ≤ m) (hr : leastParityCount m r = true) :
    deriveParameters m = .ok ⟨m, r, m + r⟩ := by
  obtain ⟨hzero, -⟩ | ⟨-, hd⟩ := deriveParameters_cases m
  · omega
  · rw [hd, searchR_one_eq_of_leastParityCount hm hr]

/-- Settles O14: the search finds the least r, and no r below the least one is enough. -/
theorem deriveParametersFindsTheLeastR : Obligations.DeriveParametersFindsTheLeastR := by
  refine ⟨deriveParameters_zero, fun m hm => ?_⟩
  obtain ⟨r, hr⟩ := exists_leastParityCount m
  obtain ⟨henough, hleast⟩ := (leastParityCount_iff m r).1 hr
  refine ⟨r, deriveParameters_of_leastParityCount hm hr, henough, fun other hother => ?_⟩
  by_contra hlt
  exact absurd hother (not_le.2 (hleast other (not_le.1 hlt)))

/-- RSV = 0 and OP = 1 make HPARAM's command word (R69). -/
theorem encode_hparam_word (m : Nat) : (encode (.hparam m)).word = 0x01#8 := by
  have hword : wordOfOp 0b0001#4 = 0x01#8 := by decide
  exact hword

/-- No N_MAX is below the empty length (R67). -/
theorem overCapacity_zero (cfg : Config) : overCapacity cfg 0 = false := by
  rw [Bool.eq_false_iff, ne_eq, overCapacity_iff]
  rintro ⟨_, -, hlt⟩
  exact Nat.not_lt_zero _ hlt

/-- The empty message passes the capacity check and is refused for its length (R82). -/
theorem hparamWork_zero (cfg : Config) :
    hparamWork cfg 0 = .error .invalidMessageLength := by
  simp [hparamWork, overCapacity_zero, deriveParameters_zero]

theorem hparamWork_of_leastParityCount (hm : 1 ≤ m) (hr : leastParityCount m r = true)
    (hfits : overCapacity cfg (m + r) = false) :
    hparamWork cfg m = .ok { Work.fresh with par := ⟨m, r, m + r⟩ } := by
  have hmfits : overCapacity cfg m = false := overCapacity_mono (Nat.le_add_right m r) hfits
  simp [hparamWork, hmfits, deriveParameters_of_leastParityCount hm hr, hfits]

/-- HPARAM answers CapacityExceeded when m or n is above N_MAX, and else r and n (R82). -/
theorem hparamResponse_of_leastParityCount (hm : 1 ≤ m) (hr : leastParityCount m r = true) :
    hparamResponse cfg m
      = if overCapacity cfg m = true ∨ overCapacity cfg (m + r) = true then
          .bare .capacityExceeded
        else .params r (m + r) := by
  split
  case isTrue hover =>
    obtain hoverM | hoverN := hover
    · exact hparamResponse_of_error (hparamWork_of_overCapacity hoverM)
    · exact hparamResponse_of_error (hparamWork_of_result_overCapacity hm hr hoverN)
  case isFalse hfits =>
    obtain ⟨-, hn⟩ := not_or.1 hfits
    rw [hparamResponse, hparamWork_of_leastParityCount hm hr (Bool.eq_false_iff.2 hn)]

/-- Settles O15: HPARAM adds its response and changes nothing else, and the response is that of R82. -/
theorem hparamFollowsItsRule : Obligations.HparamFollowsItsRule := by
  refine fun s => ⟨encode_hparam_word, ?_, fun m r hm hr => ?_⟩
  · rw [exec_hparam, hparamResponse_of_error (hparamWork_zero _)]; rfl
  · rw [exec_hparam, hparamResponse_of_leastParityCount hm hr]; rfl

end Sys2Proof.Machine
end

section
/-! PROOFS. The power-of-two positions of 1..n are 2^0 .. 2^(bitlen(n) - 1), and for n = m + r with the least r they leave m data positions (spec/40_hamming_params.md R80, R84 to R87). -/

namespace Sys2Proof.Machine

@[simp] theorem ispow2_two_pow (i : Nat) : ispow2 (2 ^ i) = true :=
  (ispow2_iff _).2 ⟨i, rfl⟩

/-- A width that holds n + 1 is one that holds n, except where n + 1 is a power of two (R10, R13). -/
theorem bitlen_succ_of_not_ispow2 {n : Nat} (h : ispow2 (n + 1) = false) :
    bitlen (n + 1) = bitlen n := by
  have hne : n + 1 ≠ 2 ^ bitlen n := fun heq => by simp [heq] at h
  have hlt := lt_two_pow_bitlen n
  exact le_antisymm ((bitlen_le_iff _ _).2 (by omega)) (bitlen_mono (Nat.le_succ n))

theorem bitlen_two_pow (i : Nat) : bitlen (2 ^ i) = i + 1 := by
  simp [bitlen]

theorem bitlen_two_pow_sub_one (i : Nat) : bitlen (2 ^ i - 1) = i :=
  eq_of_forall_ge_iff fun w => by
    have hpos := Nat.two_pow_pos i
    rw [bitlen_le_iff, ← Nat.pow_le_pow_iff_right (a := 2) (by decide)]
    omega

/-- The parity positions of any length, not only of a valid one (R84). -/
theorem parityPositions_eq_map_two_pow (n : Nat) :
    parityPositions n = (List.range (bitlen n)).map (2 ^ ·) := by
  induction n with
  | zero => rfl
  | succ n ih =>
    have hsplit : parityPositions (n + 1) = parityPositions n ++ [n + 1].filter ispow2 := by
      rw [parityPositions, positions_succ, List.filter_append]; rfl
    cases h : ispow2 (n + 1) with
    | false => simp [hsplit, ih, h, bitlen_succ_of_not_ispow2 h]
    | true =>
      obtain ⟨i, hi⟩ := (ispow2_iff _).1 h
      obtain rfl : n = 2 ^ i - 1 := by omega
      rw [hsplit, ih, hi, bitlen_two_pow, bitlen_two_pow_sub_one, List.range_succ]
      simp

/-- Every position is a parity or a data position (R84, R85). -/
theorem length_dataPositions (n : Nat) : (dataPositions n).length = n - bitlen n := by
  have hsplit := (positions n).length_eq_length_filter_add ispow2
  have hparity : ((positions n).filter ispow2).length = bitlen n := by
    have := congrArg List.length (parityPositions_eq_map_two_pow n)
    simpa [parityPositions] using this
  rw [length_positions, hparity] at hsplit
  exact Nat.eq_sub_of_add_eq' hsplit.symm

/-- The least r is the width of the codeword length (R80, R88). -/
theorem bitlen_of_leastParityCount {m r : Nat} (h : leastParityCount m r = true) :
    bitlen (m + r) = r := by
  obtain ⟨henough, hleast⟩ := (leastParityCount_iff m r).1 h
  refine le_antisymm ((bitlen_le_iff _ _).2 henough) ?_
  by_contra hlt
  have := hleast (bitlen (m + r)) (not_le.1 hlt)
  have := lt_two_pow_bitlen (m + r)
  omega

theorem length_dataPositions_of_leastParityCount {m r : Nat} (h : leastParityCount m r = true) :
    (dataPositions (m + r)).length = m := by
  rw [length_dataPositions, bitlen_of_leastParityCount h, Nat.add_sub_cancel]

/-- All r parity positions lie within the codeword (R84). -/
theorem two_pow_le_of_leastParityCount {m r i : Nat} (h : leastParityCount m r = true)
    (hi : i < r) : 2 ^ i ≤ m + r := by
  have := ((leastParityCount_iff m r).1 h).2 i hi
  omega

theorem mem_dataPositions (n j : Nat) :
    j ∈ dataPositions n ↔ (1 ≤ j ∧ j ≤ n) ∧ ispow2 j = false := by
  simp [dataPositions, mem_positions]

theorem mem_cov (n i j : Nat) : j ∈ cov n i ↔ (1 ≤ j ∧ j ≤ n) ∧ bitOf j i = true := by
  rw [cov, List.mem_filter, mem_positions, masked_eq_bitOf]

/-- The only parity position in the coverage set of index i is 2^i (R87). -/
theorem eq_of_two_pow_mem_cov {n i k : Nat} (h : 2 ^ k ∈ cov n i) : k = i := by
  obtain ⟨-, hbit⟩ := (mem_cov _ _ _).1 h
  simpa [bitOf_eq_testBit, Nat.testBit_two_pow] using hbit

end Sys2Proof.Machine
end

section
/-! PROOFS. Placement puts the message at the data positions, and setting the parity bits leaves it there and makes each parity bit the xor over its coverage set (spec/41_hamming_encode.md R100 to R102). -/

namespace Sys2Proof.Machine

theorem bitAt_append_length_succ (front back : BitVector) (b : Bool) :
    bitAt (front ++ b :: back) (front.length + 1) = b := by
  simp [bitAt]

/-- Placement from the position behind `front` on: when there are as many message bits as data
positions, those positions hold the message, whatever stands in front (R101). -/
theorem map_bitAt_append_placeFrom (count : Nat) (front data : BitVector)
    (hlen : ((List.range' (front.length + 1) count).filter fun j => !ispow2 j).length
      = data.length) :
    ((List.range' (front.length + 1) count).filter fun j => !ispow2 j).map
        (bitAt (front ++ placeFrom (front.length + 1) count data))
      = data := by
  induction count generalizing front data with
  | zero => exact (List.length_eq_zero_iff.1 hlen.symm).symm
  | succ count ih =>
    cases hj : ispow2 (front.length + 1) with
    | true =>
      have := ih (front ++ [false]) data (by simpa [List.range'_succ, hj] using hlen)
      simpa [List.range'_succ, placeFrom, hj] using this
    | false =>
      cases data with
      | nil => simp [List.range'_succ, hj] at hlen
      | cons b data =>
        have := ih (front ++ [b]) data (by simpa [List.range'_succ, hj] using hlen)
        simpa [List.range'_succ, placeFrom, hj, bitAt_append_length_succ] using this

theorem map_bitAt_place {n : Nat} {data : BitVector}
    (hlen : (dataPositions n).length = data.length) :
    (dataPositions n).map (bitAt (place n data)) = data :=
  map_bitAt_append_placeFrom n [] data hlen

/-- A parity bit is computed from data positions only: no bit at a power of two counts (R87, R102). -/
theorem parityBit_setAt_two_pow (c : BitVector) (k i : Nat) (b : Bool) :
    parityBit (setAt c (2 ^ k) b) i = parityBit c i := by
  rw [parityBit, parityBit, length_setAt]
  congr 1
  refine List.map_congr_left fun j hj => ?_
  obtain ⟨hcov, hne⟩ := List.mem_filter.1 hj
  refine bitAt_setAt_ne b (Nat.two_pow_pos k) ((mem_cov _ _ _).1 hcov).1.1 ?_
  rintro rfl
  obtain rfl := eq_of_two_pow_mem_cov hcov
  simp at hne

/-- Hence the order in which the parity bits are set does not matter (R102). -/
theorem parityBit_setParities (c : BitVector) (r i : Nat) :
    parityBit (setParities c r) i = parityBit c i := by
  induction r with
  | zero => rfl
  | succ r ih => rw [setParities_succ, parityBit_setAt_two_pow, ih]

theorem bitAt_setParities_of_not_ispow2 (c : BitVector) (r : Nat) {j : Nat} (hj : 1 ≤ j)
    (h : ispow2 j = false) : bitAt (setParities c r) j = bitAt c j := by
  induction r with
  | zero => rfl
  | succ r ih =>
    have hne : 2 ^ r ≠ j := by
      rintro rfl
      simp at h
    rw [setParities_succ, bitAt_setAt_ne _ (Nat.two_pow_pos r) hj hne, ih]

/-- Every parity bit that was set holds the xor over its coverage set without itself (R100). -/
theorem bitAt_setParities_two_pow {c : BitVector} {r i : Nat} (hi : i < r)
    (hn : 2 ^ i ≤ c.length) : bitAt (setParities c r) (2 ^ i) = parityBit (setParities c r) i := by
  rw [parityBit_setParities]
  induction r with
  | zero => exact absurd hi (Nat.not_lt_zero i)
  | succ r ih =>
    rw [setParities_succ]
    obtain hlt | rfl := Nat.lt_succ_iff_lt_or_eq.1 hi
    · have hne : 2 ^ r ≠ 2 ^ i := fun h => hlt.ne' (Nat.pow_right_injective le_rfl h)
      rw [bitAt_setAt_ne _ (Nat.two_pow_pos r) (Nat.two_pow_pos i) hne, ih hlt]
    · rw [bitAt_setAt_self _ (Nat.two_pow_pos i) (by simpa using hn), parityBit_setParities]

theorem map_bitAt_setParities_dataPositions (c : BitVector) (r n : Nat) :
    (dataPositions n).map (bitAt (setParities c r)) = (dataPositions n).map (bitAt c) :=
  List.map_congr_left fun j hj => by
    obtain ⟨⟨hpos, -⟩, hdata⟩ := (mem_dataPositions n j).1 hj
    exact bitAt_setParities_of_not_ispow2 c r hpos hdata

end Sys2Proof.Machine
end

section
/-! PROOFS. HENC answers by its rule (spec/41_hamming_encode.md R100). -/

namespace Sys2Proof.Machine

/-- RSV = 0 and OP = 2 make HENC's command word (R69). -/
theorem encode_henc_word (data : BitVector) : (encode (.henc data)).word = 0x02#8 := by
  have hword : wordOfOp 0b0010#4 = 0x02#8 := by decide
  exact hword

/-- Within capacity HENC answers the placed message with its r parity bits set (R100). -/
theorem hencResponse_of_leastParityCount {cfg : Config} {data : BitVector} {r : Nat}
    (hne : data ≠ []) (hr : leastParityCount data.length r = true)
    (hfits : overCapacity cfg (data.length + r) = false) :
    hencResponse cfg data = .encoded (setParities (place (data.length + r) data) r) := by
  have hwork := hparamWork_of_leastParityCount (List.length_pos_of_ne_nil hne) hr hfits
  simp [hencResponse, hencWork, hwork]

/-- Settles O20: HENC adds its response and changes nothing else; the CODEWORD of the OK response is
the placed message, which setting the parity bits leaves at the data positions. -/
theorem hencFollowsItsRule : Obligations.HencFollowsItsRule := by
  refine fun s => ⟨encode_henc_word, ?_, fun data r hne hr => ⟨fun hover => ?_, fun hfits => ?_⟩⟩
  · rw [exec_henc, hencResponse_of_error (hparamWork_zero _)]; rfl
  · have hwork := hparamWork_of_result_overCapacity (List.length_pos_of_ne_nil hne) hr hover
    rw [exec_henc, hencResponse_of_error hwork]; rfl
  · have hlen : (setParities (place (data.length + r) data) r).length = data.length + r := by simp
    refine ⟨setParities (place (data.length + r) data) r, ?_, hlen, ?_, fun i hi => ?_⟩
    · rw [exec_henc, hencResponse_of_leastParityCount hne hr hfits]; rfl
    · rw [hlen, map_bitAt_setParities_dataPositions,
        map_bitAt_place (length_dataPositions_of_leastParityCount hr)]
    · refine bitAt_setParities_two_pow hi ?_
      simpa using two_pow_le_of_leastParityCount hr hi

end Sys2Proof.Machine
end

section
/-! PROOFS. The error position is the one number whose digits are the checks (spec/42_hamming_syndrome_decode.md R111), and flipping one position of a word changes that number by the xor with the position (R91). -/

namespace Sys2Proof.Machine

theorem errorPosition_lt_two_pow (syn : List Bool) : errorPosition syn < 2 ^ syn.length := by
  induction syn with
  | nil => exact Nat.one_pos
  | cons b syn ih =>
    rw [errorPosition, List.length_cons, Nat.pow_succ']
    have := b.toNat_le
    omega

/-- Digit i of the error position is check i of the syndrome (R111). -/
theorem bitOf_errorPosition (syn : List Bool) {i : Nat} (hi : i < syn.length) :
    bitOf (errorPosition syn) i = syn[i] := by
  induction syn generalizing i with
  | nil => exact absurd hi (Nat.not_lt_zero i)
  | cons b syn ih =>
    rw [errorPosition]
    cases i with
    | zero => exact bitOf_toNat_add_two_mul_zero b _
    | succ i => exact (bitOf_toNat_add_two_mul_succ b _ i).trans (ih (Nat.lt_of_succ_lt_succ hi))

theorem spellsChecks_iff (e : Nat) (v : BitVector) :
    spellsChecks e v = true
      ↔ e < 2 ^ bitlen v.length ∧ ∀ i < bitlen v.length, bitOf e i = check v i := by
  simp [spellsChecks]

theorem spellsChecks_errorPosition (v : BitVector) :
    spellsChecks (errorPosition (syndrome v (bitlen v.length))) v = true := by
  refine (spellsChecks_iff _ v).2 ⟨?_, fun i hi => ?_⟩
  · simpa using errorPosition_lt_two_pow (syndrome v (bitlen v.length))
  · rw [bitOf_errorPosition _ (by simpa using hi)]
    simp [syndrome]

/-- Two numbers below 2^r that agree in their r digits are equal. -/
theorem eq_of_spellsChecks {d e : Nat} {v : BitVector} (hd : spellsChecks d v = true)
    (he : spellsChecks e v = true) : d = e := by
  obtain ⟨hdlt, hdbits⟩ := (spellsChecks_iff d v).1 hd
  obtain ⟨helt, hebits⟩ := (spellsChecks_iff e v).1 he
  refine Nat.eq_of_testBit_eq fun i => ?_
  obtain hi | hi := Nat.lt_or_ge i (bitlen v.length)
  · rw [← bitOf_eq_testBit, ← bitOf_eq_testBit, hdbits i hi, hebits i hi]
  · have hpow : 2 ^ bitlen v.length ≤ 2 ^ i := Nat.pow_le_pow_right (by decide) hi
    rw [Nat.testBit_lt_two_pow (hdlt.trans_le hpow), Nat.testBit_lt_two_pow (helt.trans_le hpow)]

theorem errorPosition_eq_of_spellsChecks {e : Nat} {v : BitVector}
    (h : spellsChecks e v = true) : errorPosition (syndrome v (bitlen v.length)) = e :=
  eq_of_spellsChecks (spellsChecks_errorPosition v) h

theorem failedChecks_eq_popcount {e : Nat} {v : BitVector} (h : spellsChecks e v = true) :
    failedChecks v = popcount e := by
  rw [← popcount_errorPosition_syndrome, errorPosition_eq_of_spellsChecks h]

/-- A codeword is a word of valid length whose checks spell 0 (R90). -/
theorem isCodeword_iff (v : BitVector) :
    isCodeword v = true ↔ validN v.length = true ∧ spellsChecks 0 v = true := by
  have hzero : ∀ i, bitOf 0 i = false := fun i => by rw [bitOf_eq_testBit, Nat.zero_testBit]
  simp [isCodeword, spellsChecks_iff, hzero]

theorem bitAt_flipAt {v : BitVector} {j k : Nat} (hj : 1 ≤ j) (hn : j ≤ v.length) (hk : 1 ≤ k) :
    bitAt (flipAt v j) k = (bitAt v k ^^ (k == j)) := by
  by_cases h : j = k
  · subst h
    simp [flipAt, bitAt_setAt_self _ hj hn]
  · have hne : (k == j) = false := beq_false_of_ne (Ne.symm h)
    rw [flipAt, bitAt_setAt_ne _ hj hk h, hne, Bool.xor_false]

theorem flipAt_flipAt {v : BitVector} {j : Nat} (hj : 1 ≤ j) (hn : j ≤ v.length) :
    flipAt (flipAt v j) j = v := by
  have hlt : j - 1 < v.length := by omega
  have hself : bitAt (flipAt v j) j = !bitAt v j := bitAt_setAt_self _ hj hn
  rw [flipAt, hself, Bool.not_not, flipAt, setAt, setAt, List.set_set, bitAt,
    List.getD_eq_getElem _ _ hlt, List.set_getElem_self]

theorem nodup_positions (n : Nat) : (positions n).Nodup :=
  List.nodup_range'

theorem nodup_cov (n i : Nat) : (cov n i).Nodup :=
  (nodup_positions n).filter _

/-- Of the positions 1..n only j itself is j, so this xor is the term of j. -/
theorem xorAll_map_beq_cov {n i j : Nat} (hj : 1 ≤ j) (hn : j ≤ n) :
    xorAll ((cov n i).map fun k => k == j) = bitOf j i := by
  have hself : (positions n).filter (fun k => k == j) = [j] := by
    rw [List.filter_beq, List.count_eq_one_of_mem (nodup_positions n)
      ((mem_positions n j).2 ⟨hj, hn⟩)]
    rfl
  calc xorAll ((cov n i).map fun k => k == j)
      = xorAll ((positions n).map fun k => bitOf k i && (k == j)) := by
        simp only [cov, xorAll_map_filter, masked_eq_bitOf]
    _ = xorAll (((positions n).filter fun k => k == j).map fun k => bitOf k i) := by
        simp only [xorAll_map_filter, Bool.and_comm]
    _ = bitOf j i := by simp [hself]

/-- Flipping position j changes exactly the checks that cover j (R91). -/
theorem check_flipAt {v : BitVector} {j : Nat} (hj : 1 ≤ j) (hn : j ≤ v.length) (i : Nat) :
    check (flipAt v j) i = (check v i ^^ bitOf j i) := by
  have hbits : (cov v.length i).map (bitAt (flipAt v j))
      = (cov v.length i).map fun k => bitAt v k ^^ (k == j) :=
    List.map_congr_left fun k hk => bitAt_flipAt hj hn ((mem_cov _ _ _).1 hk).1.1
  rw [check, length_flipAt, hbits, xorAll_map_xor, xorAll_map_beq_cov hj hn, check]

theorem spellsChecks_flipAt {e j : Nat} {v : BitVector} (h : spellsChecks e v = true)
    (hj : 1 ≤ j) (hn : j ≤ v.length) : spellsChecks (e ^^^ j) (flipAt v j) = true := by
  obtain ⟨helt, hebits⟩ := (spellsChecks_iff e v).1 h
  have hjlt : j < 2 ^ bitlen v.length := hn.trans_lt (lt_two_pow_bitlen _)
  rw [spellsChecks_iff, length_flipAt]
  refine ⟨Nat.xor_lt_two_pow helt hjlt, fun i hi => ?_⟩
  rw [check_flipAt hj hn, ← hebits i hi, bitOf_eq_testBit, Nat.testBit_xor,
    bitOf_eq_testBit, bitOf_eq_testBit]

end Sys2Proof.Machine
end

section
/-! PROOFS. HSYN and HDEC answer by their rules (spec/42_hamming_syndrome_decode.md R113, R114). -/

namespace Sys2Proof.Machine

variable {cfg : Config} {v : BitVector}

/-- RSV = 0 and OP = 3 make HSYN's command word (R69). -/
theorem encode_hsyn_word (v : BitVector) : (encode (.hsyn v)).word = 0x03#8 := by
  have hword : wordOfOp 0b0011#4 = 0x03#8 := by decide
  exact hword

/-- RSV = 0 and OP = 4 make HDEC's command word (R69). -/
theorem encode_hdec_word (v : BitVector) : (encode (.hdec v)).word = 0x04#8 := by
  have hword : wordOfOp 0b0100#4 = 0x04#8 := by decide
  exact hword

/-- The valid lengths are those from 3 on that are no power of two (R88). -/
theorem validN_iff (n : Nat) : validN n = true ↔ 3 ≤ n ∧ ∀ k, n ≠ 2 ^ k := by
  rw [validN, Bool.and_eq_true, decide_eq_true_iff, Bool.not_eq_true', Bool.eq_false_iff, ne_eq,
    ispow2_iff, not_exists]

theorem validN_eq_false_iff (n : Nat) : validN n = false ↔ n < 3 ∨ ∃ k, n = 2 ^ k := by
  rw [Bool.eq_false_iff, ne_eq, validN_iff, not_and_or, not_le, not_forall_not]

theorem syndromeWork_of_invalid_length (hfits : overCapacity cfg v.length = false)
    (hlen : validN v.length = false) : syndromeWork cfg v = .error .invalidCodewordLength := by
  simp [syndromeWork, hfits, hlen]

/-- For a word of valid length the checks of its working copy are computed (R113). -/
theorem syndromeWork_of_spellsChecks {e : Nat} (hfits : overCapacity cfg v.length = false)
    (hlen : validN v.length = true) (he : spellsChecks e v = true) :
    ∃ w, syndromeWork cfg v = .ok w ∧ w.par.n = v.length ∧ w.cw = v
      ∧ errorPosition w.syn = e := by
  have hw : syndromeWork cfg v
      = .ok { Work.fresh with
          par := paramsOfLength v.length, cw := v, syn := syndrome v (bitlen v.length) } := by
    simp [syndromeWork, hfits, hlen, paramsOfLength]
  exact ⟨_, hw, rfl, rfl, errorPosition_eq_of_spellsChecks he⟩

theorem hsynResponse_of_invalid_length (hfits : overCapacity cfg v.length = false)
    (hlen : validN v.length = false) : hsynResponse cfg v = .bare .invalidCodewordLength := by
  rw [hsynResponse, syndromeWork_of_invalid_length hfits hlen]

theorem hdecResponse_of_invalid_length (hfits : overCapacity cfg v.length = false)
    (hlen : validN v.length = false) : hdecResponse cfg v = .bare .invalidCodewordLength := by
  rw [hdecResponse, syndromeWork_of_invalid_length hfits hlen]

/-- For a word of valid length HSYN answers the number its checks spell and how many of them are 1
(R113). -/
theorem hsynResponse_of_spellsChecks {e : Nat} (hfits : overCapacity cfg v.length = false)
    (hlen : validN v.length = true) (he : spellsChecks e v = true) :
    hsynResponse cfg v = .syndrome e (popcount e) := by
  obtain ⟨w, hw, -, -, rfl⟩ := syndromeWork_of_spellsChecks hfits hlen he
  rw [hsynResponse, hw]

/-- For a word of valid length HDEC extracts the word as it is, extracts it with one position
flipped, or gives up, by the number its checks spell (R114). -/
theorem hdecResponse_of_spellsChecks {e : Nat} (hfits : overCapacity cfg v.length = false)
    (hlen : validN v.length = true) (he : spellsChecks e v = true) :
    hdecResponse cfg v
      = if e = 0 then .decoded (extract v)
        else if e ≤ v.length then .decoded (extract (flipAt v e))
        else .uncorrectable (failedChecks v) := by
  rw [failedChecks_eq_popcount he]
  obtain ⟨w, hw, hn, rfl, rfl⟩ := syndromeWork_of_spellsChecks hfits hlen he
  rw [hdecResponse, hw, ← hn]
  dsimp only
  obtain ⟨hzero, hc⟩ | ⟨hpos, hle, hc⟩ | ⟨hlt, hc⟩ := correct_cases w
  · rw [hc, if_pos hzero]
  · rw [hc, if_neg (by omega), if_pos hle]
  · rw [hc, if_neg (by omega), if_neg (by omega)]

theorem extract_flipAt {e : Nat} (he : 1 ≤ e) (hn : e ≤ v.length) :
    extract (flipAt v e) = (dataPositions v.length).map fun j => bitAt v j ^^ (j == e) := by
  rw [extract, length_flipAt]
  exact List.map_congr_left fun j hj =>
    bitAt_flipAt he hn ((mem_dataPositions _ _).1 hj).1.1

/-- Settles O24: HSYN adds its response and changes nothing else; the witness for ERRPOS is the
error position of R111. -/
theorem hsynFollowsItsRule : Obligations.HsynFollowsItsRule := by
  refine fun s v => ⟨encode_hsyn_word v, fun hover => ?_, fun hfits hlen => ?_,
    fun hfits hlow hpow => ?_⟩
  · rw [exec_hsyn, hsynResponse_of_overCapacity hover]; rfl
  · rw [exec_hsyn, hsynResponse_of_invalid_length hfits ((validN_eq_false_iff _).2 hlen)]; rfl
  · have hlen := (validN_iff _).2 ⟨hlow, hpow⟩
    have hspells := spellsChecks_errorPosition v
    have hcount := failedChecks_eq_popcount hspells
    refine ⟨_, ?_, hspells, hcount⟩
    rw [exec_hsyn, hsynResponse_of_spellsChecks hfits hlen hspells, hcount]; rfl

/-- Settles O26: HDEC adds its response and changes nothing else; extraction of the word with
position e flipped flips the data bit at e, if e is a data position. -/
theorem hdecFollowsItsRule : Obligations.HdecFollowsItsRule := by
  refine fun s v => ⟨encode_hdec_word v, fun hover => ?_, fun hfits hlen => ?_,
    fun e hfits hlow hpow he => ?_⟩
  · rw [exec_hdec, hdecResponse_of_overCapacity hover]; rfl
  · rw [exec_hdec, hdecResponse_of_invalid_length hfits ((validN_eq_false_iff _).2 hlen)]; rfl
  · rw [exec_hdec, hdecResponse_of_spellsChecks hfits ((validN_iff _).2 ⟨hlow, hpow⟩) he]
    split
    · rfl
    · split
      · rw [extract_flipAt (by omega) ‹_›]; rfl
      · rfl

end Sys2Proof.Machine
end

section
/-! PROOFS. HENC answers a codeword of its message, and HDEC undoes it after at most one error (spec/41_hamming_encode.md R105, spec/42_hamming_syndrome_decode.md R118). -/

namespace Sys2Proof.Machine

variable {cfg : Config} {data cw : BitVector} {r : Nat}

/-- HENC answers a codeword only within capacity, and then the one of R100. -/
theorem eq_of_hencResponse_eq_encoded (h : hencResponse cfg data = .encoded cw) :
    data ≠ [] ∧ ∃ r, leastParityCount data.length r = true
      ∧ overCapacity cfg (data.length + r) = false
      ∧ cw = setParities (place (data.length + r) data) r := by
  have hbare : ∀ status, status ≠ .ok → hencResponse cfg data ≠ .bare status :=
    fun status hstatus hr => hstatus (congrArg Response.status (hr.symm.trans h))
  have hne : data ≠ [] := by
    rintro rfl
    exact hbare .invalidMessageLength (by decide) (hencResponse_of_error (hparamWork_zero cfg))
  obtain ⟨r, hr⟩ := exists_leastParityCount data.length
  have hfits : overCapacity cfg (data.length + r) = false := by
    refine Bool.eq_false_iff.2 fun hover =>
      hbare .capacityExceeded (by decide) (hencResponse_of_error ?_)
    exact hparamWork_of_result_overCapacity (List.length_pos_of_ne_nil hne) hr hover
  have hcw := h.symm.trans (hencResponse_of_leastParityCount hne hr hfits)
  exact ⟨hne, r, hr, hfits, Option.some.inj (congrArg Response.codeword hcw)⟩

/-- The codeword lengths m + r are valid lengths (R88). -/
theorem validN_of_leastParityCount {m : Nat} (hm : 1 ≤ m) (hr : leastParityCount m r = true) :
    validN (m + r) = true := by
  obtain ⟨henough, hleast⟩ := (leastParityCount_iff m r).1 hr
  refine (validN_iff _).2 ⟨?_, fun k hk => ?_⟩
  · match r with
    | 0 | 1 => omega
    | r + 2 => omega
  · have hkr : k < r := (Nat.pow_lt_pow_iff_right (by decide : 1 < 2)).1 (by omega)
    have := hleast k hkr
    omega

theorem xorAll_eq_of_perm {k l : List Bool} (h : k.Perm l) : xorAll k = xorAll l :=
  have : LeftCommutative xor := ⟨Bool.xor_left_comm⟩
  h.foldr_eq false

/-- Check i is the parity bit at 2^i xor the parity of the other positions it covers (R102, R110). -/
theorem check_eq_bitAt_xor_parityBit {v : BitVector} {i : Nat} (hn : 2 ^ i ≤ v.length) :
    check v i = (bitAt v (2 ^ i) ^^ parityBit v i) := by
  have hmem : 2 ^ i ∈ cov v.length i :=
    (mem_cov _ _ _).2 ⟨⟨Nat.two_pow_pos i, hn⟩, by rw [bitOf_eq_testBit, Nat.testBit_two_pow_self]⟩
  have hperm := (List.perm_cons_erase hmem).map (bitAt v)
  rw [(nodup_cov _ _).erase_eq_filter, List.map_cons] at hperm
  exact xorAll_eq_of_perm hperm

/-- Setting the parity bits of a word of length m + r makes it a codeword (R105). -/
theorem isCodeword_setParities {c : BitVector} {m : Nat} (hm : 1 ≤ m)
    (hr : leastParityCount m r = true) (hlen : c.length = m + r) :
    isCodeword (setParities c r) = true := by
  rw [isCodeword_iff, spellsChecks_iff, length_setParities, hlen, bitlen_of_leastParityCount hr]
  refine ⟨validN_of_leastParityCount hm hr, Nat.two_pow_pos r, fun i hi => ?_⟩
  have hn : 2 ^ i ≤ c.length := hlen ▸ two_pow_le_of_leastParityCount hr hi
  rw [check_eq_bitAt_xor_parityBit (by rwa [length_setParities]),
    bitAt_setParities_two_pow hi hn, Bool.xor_self, bitOf_eq_testBit, Nat.zero_testBit]

/-- The CODEWORD that HENC answers is within capacity, satisfies the codeword invariant, and holds
the message at its data positions (R101, R105). -/
theorem codeword_of_hencResponse (h : hencResponse cfg data = .encoded cw) :
    overCapacity cfg cw.length = false ∧ isCodeword cw = true ∧ extract cw = data := by
  obtain ⟨hne, r, hr, hfits, rfl⟩ := eq_of_hencResponse_eq_encoded h
  refine ⟨by simpa using hfits, ?_, ?_⟩
  · exact isCodeword_setParities (List.length_pos_of_ne_nil hne) hr (length_place _ _)
  · rw [extract, length_setParities, length_place, map_bitAt_setParities_dataPositions,
      map_bitAt_place (length_dataPositions_of_leastParityCount hr)]

theorem hencResponse_of_exec {s : State}
    (h : exec (.henc data) s
      = .next { s with seq := .idle, resp := s.resp ++ [.encoded cw] }) :
    hencResponse s.config data = .encoded cw := by
  have hresp := congrArg State.resp (Host.Outcome.next.inj ((exec_henc data s).symm.trans h))
  simpa using hresp

/-- A codeword spells 0, so HDEC extracts it as it is. -/
theorem hdecResponse_of_isCodeword (hfits : overCapacity cfg cw.length = false)
    (hcw : isCodeword cw = true) : hdecResponse cfg cw = .decoded (extract cw) := by
  obtain ⟨hlen, hzero⟩ := (isCodeword_iff cw).1 hcw
  rw [hdecResponse_of_spellsChecks hfits hlen hzero, if_pos rfl]

section
variable {idx : Nat} (hfits : overCapacity cfg cw.length = false) (hcw : isCodeword cw = true)
  (hpos : 1 ≤ idx) (hn : idx ≤ cw.length)
include hcw hpos hn

/-- The checks of a codeword with one flipped bit spell the position of that bit (R91). -/
theorem spellsChecks_flipAt_of_isCodeword : spellsChecks idx (flipAt cw idx) = true := by
  simpa using spellsChecks_flipAt ((isCodeword_iff cw).1 hcw).2 hpos hn

include hfits

theorem hsynResponse_flipAt_of_isCodeword :
    hsynResponse cfg (flipAt cw idx) = .syndrome idx (popcount idx) := by
  have hlen := ((isCodeword_iff cw).1 hcw).1
  exact hsynResponse_of_spellsChecks (by rwa [length_flipAt]) (by rwa [length_flipAt])
    (spellsChecks_flipAt_of_isCodeword hcw hpos hn)

/-- HDEC flips the located bit back. -/
theorem hdecResponse_flipAt_of_isCodeword :
    hdecResponse cfg (flipAt cw idx) = .decoded (extract cw) := by
  have hlen := ((isCodeword_iff cw).1 hcw).1
  rw [hdecResponse_of_spellsChecks (by rwa [length_flipAt]) (by rwa [length_flipAt])
      (spellsChecks_flipAt_of_isCodeword hcw hpos hn),
    if_neg (by omega), if_pos (by rwa [length_flipAt]), flipAt_flipAt hpos hn]

end

/-- Settles O29: HENC's codeword spells 0 and holds the message; with bit idx flipped it spells idx,
so HSYN answers idx and HDEC flips it back. -/
theorem atMostOneErrorIsCorrected : Obligations.AtMostOneErrorIsCorrected := by
  intro s t data cw hconfig hexec
  obtain ⟨hfits, hcw, rfl⟩ := codeword_of_hencResponse (hencResponse_of_exec hexec)
  rw [← hconfig] at hfits
  refine ⟨?_, fun idx hpos hn => ⟨?_, ?_⟩⟩
  · rw [exec_hdec, hdecResponse_of_isCodeword hfits hcw]; rfl
  · rw [exec_hdec, hdecResponse_flipAt_of_isCodeword hfits hcw hpos hn]; rfl
  · rw [exec_hsyn, hsynResponse_flipAt_of_isCodeword hfits hcw hpos hn]; rfl

end Sys2Proof.Machine
end

section
/-! PROOFS. What ends a channel command before its first draw, and what it does with an empty word (spec/43_channel_bsc.md R136, R138, spec/44_channel_ge.md R153, R156). -/

namespace Sys2Proof.Machine

variable {cfg : Config} {s : State} {c : Channel} {w final : Work} {later : List Nat}

theorem channelError_of_illegalProb (hfits : overCapacity cfg c.bitsIn.length = false)
    (hprob : ∃ p ∈ c.probs, 2 ^ cfg.probW < p) : channelError cfg c = some .invalidParameter := by
  have hillegal : c.probs.any (illegalProb cfg) = true := by
    simpa [List.any_eq_true, illegalProb] using hprob
  simp [channelError, hfits, hillegal]

/-- A probability above one ends a channel command that is within capacity (R136, R153). -/
theorem State.startChannel_of_illegalProb (hfits : overCapacity s.config c.bitsIn.length = false)
    (hprob : ∃ p ∈ c.probs, 2 ^ s.config.probW < p) :
    s.startChannel c = s.respond (.bare .invalidParameter) :=
  State.startChannel_of_error (channelError_of_illegalProb hfits hprob)

/-- A channel command whose loop ends in the working state `final` answers with what stands there. -/
theorem State.transmit_of_pull (hpull : c.pull w s.rnd = (final, later))
    (hfinal : c.finished final = true) :
    s.transmit c w = { s with rnd := later }.respond (.transmitted final.cw final.flipped) := by
  have hf : c.finished (c.pull w s.rnd).1 = true := by rwa [hpull]
  rw [State.transmit_of_finished hf, hpull]

/-- On the empty word the loop is over before it begins. -/
theorem State.transmit_start_of_empty (hempty : c.bitsIn = []) :
    s.transmit c c.start = s.respond (.transmitted [] 0) := by
  have hover : c.finished c.start = true := by
    simp [finished_iff, hempty, Channel.start, Work.fresh]
  rw [State.transmit_of_pull (Channel.pull_finished hover s.rnd) hover]
  simp [Channel.start, hempty, newVector, Work.fresh]

/-- On the empty word only the probabilities can be wrong, and no draw is pulled (R138, R156). -/
theorem State.startChannel_of_empty (hempty : c.bitsIn = []) :
    s.startChannel c
      = s.respond (if ∀ p ∈ c.probs, p ≤ 2 ^ s.config.probW then .transmitted [] 0
          else .bare .invalidParameter) := by
  have hfits : overCapacity s.config c.bitsIn.length = false := by
    rw [hempty]; exact overCapacity_zero _
  split
  case isTrue hlegal =>
    rw [State.startChannel_of_no_error ((channelError_eq_none_iff _ _).2 ⟨hfits, hlegal⟩),
      State.transmit_start_of_empty hempty]
  case isFalse hillegal =>
    exact State.startChannel_of_illegalProb hfits (by simpa using hillegal)

/-- Settles O34: the probability is among the operands that are checked before the first draw. -/
theorem channelsRejectAProbabilityAboveOne : Obligations.ChannelsRejectAProbabilityAboveOne := by
  refine fun s bits p q r u hfits => ⟨fun hp => ?_, fun hany => ?_⟩
  · have hprob : ∃ x ∈ (Channel.bsc bits p).probs, 2 ^ s.config.probW < x :=
      ⟨p, List.mem_singleton_self p, hp⟩
    rw [exec_bsc, State.startChannel_of_illegalProb hfits hprob]; rfl
  · have hprob : ∃ x ∈ (Channel.ge bits p q r u).probs, 2 ^ s.config.probW < x := by
      simpa [Channel.probs] using hany
    rw [exec_ge, State.startChannel_of_illegalProb hfits hprob]; rfl

/-- Settles O35: the empty word passes both commands by one law of channel commands. -/
theorem channelsPassTheEmptyVector : Obligations.ChannelsPassTheEmptyVector := by
  refine fun s ber pGB pBG pG pB => ⟨?_, ?_⟩
  · rw [exec_bsc, State.startChannel_of_empty rfl]
    simp [Channel.probs, State.respond]
  · rw [exec_ge, State.startChannel_of_empty rfl]
    simp [Channel.probs, State.respond]

end Sys2Proof.Machine
end

section
/-! PROOFS. A command that answers OK has pulled the draws of its rule, and one that answers any other status none (spec/43_channel_bsc.md R133). -/

namespace Sys2Proof.Machine

variable {s t : State} {c : Channel} {r : Response}

/-- From `s` to `t`, the command that answered `r` has pulled its `n` draws if `r` is OK, and no
draw at all if it is not (R133). -/
def PulledByStatus (n : Nat) (s t : State) (r : Response) : Prop :=
  (r.status = .ok → n ≤ s.rnd.length ∧ t.rnd = s.rnd.drop n) ∧ (r.status ≠ .ok → t.rnd = s.rnd)

/-- A command needs no draw and answers at once, or is a channel command that is due its draws when
its loop begins. -/
theorem exec_cases_drawsOf (i : Instr) :
    (drawsOf i = 0 ∧ ∀ s, ∃ answer, exec i s = .next (s.respond answer))
      ∨ ∃ c : Channel, drawsOf i = drawsDue c c.start
          ∧ ∀ s, exec i s = .next (s.startChannel c) := by
  cases i with
  | hparam m => exact .inl ⟨rfl, fun s => ⟨_, exec_hparam m s⟩⟩
  | henc data => exact .inl ⟨rfl, fun s => ⟨_, exec_henc data s⟩⟩
  | hsyn v => exact .inl ⟨rfl, fun s => ⟨_, exec_hsyn v s⟩⟩
  | hdec v => exact .inl ⟨rfl, fun s => ⟨_, exec_hdec v s⟩⟩
  | bsc bits ber => exact .inr ⟨.bsc bits ber, rfl, exec_bsc bits ber⟩
  | ge bits pGB pBG pG pB =>
    exact .inr ⟨.ge bits pGB pBG pG pB, rfl, exec_ge bits pGB pBG pG pB⟩
  | diff a b => exact .inl ⟨rfl, fun s => ⟨_, exec_diff a b s⟩⟩

theorem pulledByStatus_respond (s : State) (answer r : Response) :
    PulledByStatus 0 s (s.respond answer) r :=
  ⟨fun _ => ⟨Nat.zero_le _, rfl⟩, fun _ => rfl⟩

theorem channelError_ne_ok (cfg : Config) (c : Channel) : channelError cfg c ≠ some .ok := by
  intro h
  obtain ⟨-, hok⟩ | hok := channelError_eq_some h
  · cases hok
  · cases hok

/-- The operand checks end a channel command before its first draw, and a loop that is over has
pulled what was due. -/
theorem pulledByStatus_startChannel (hr : (s.startChannel c).resp = s.resp ++ [r]) :
    PulledByStatus (drawsDue c c.start) s (s.startChannel c) r := by
  cases herr : channelError s.config c with
  | some status =>
    rw [State.startChannel_of_error herr] at hr ⊢
    obtain rfl : Response.bare status = r := by simpa using hr
    exact ⟨fun hok => absurd (herr.trans (congrArg some hok)) (channelError_ne_ok _ _),
      fun _ => rfl⟩
  | none =>
    rw [State.startChannel_of_no_error herr] at hr ⊢
    obtain ⟨hrest, henough⟩ := Channel.pull_takes_the_draws_due c c.start s.rnd
    obtain ⟨hover, ht⟩ | ⟨-, ht⟩ := s.transmit_cases c c.start
    · rw [ht] at hr ⊢
      obtain rfl : Response.transmitted _ _ = r := by simpa using hr
      exact ⟨fun _ => ⟨henough.1 hover, hrest⟩, fun hne => absurd rfl hne⟩
    · simp [ht] at hr

/-- Settles O46: only a channel command pulls draws, and it pulls those due when its loop begins. -/
theorem drawsPulledAreFixedByTheCommand : Obligations.DrawsPulledAreFixedByTheCommand := by
  intro i s t r h hr
  change PulledByStatus (drawsOf i) s t r
  obtain ⟨hnone, hexec⟩ | ⟨c, hdraws, hexec⟩ := exec_cases_drawsOf i
  · obtain ⟨answer, hs⟩ := hexec s
    obtain rfl := Host.Outcome.next.inj (hs.symm.trans h)
    rw [hnone]
    exact pulledByStatus_respond s answer r
  · obtain rfl := Host.Outcome.next.inj ((hexec s).symm.trans h)
    rw [hdraws]
    exact pulledByStatus_startChannel hr

end Sys2Proof.Machine
end

section
/-! PROOFS. BSC decides its positions one by one, each by the draw in its turn (spec/43_channel_bsc.md R134). -/

namespace Sys2Proof.Machine

/-- The working state of BSC's loop with `out` decided and `left` positions still to decide: CW is
`out` and then zeros, IDX the first position behind `out`. -/
def loopWork (out : BitVector) (left flipped : Nat) : Work :=
  { Work.fresh with cw := out ++ newVector left, idx := out.length + 1, flipped := flipped }

theorem start_eq_loopWork (c : Channel) : c.start = loopWork [] c.bitsIn.length 0 := rfl

theorem loopWork_zero_cw (out : BitVector) (flipped : Nat) : (loopWork out 0 flipped).cw = out :=
  List.append_nil out

/-- The loop is over exactly when no position is left. -/
theorem finished_loopWork {c : Channel} {out : BitVector} {left flipped : Nat}
    (hlen : c.bitsIn.length = out.length + left) :
    c.finished (loopWork out left flipped) = true ↔ left = 0 := by
  rw [finished_iff, hlen, loopWork]
  dsimp only
  omega

theorem setAt_append_length_succ (front back : BitVector) (old new : Bool) :
    setAt (front ++ old :: back) (front.length + 1) new = front ++ new :: back := by
  simp [setAt]

/-- One draw decides the bit behind those decided: it is inverted exactly when the draw is below
BER (R132, R134). -/
theorem onDraw_bsc_loopWork {front out : BitVector} (hlen : out.length = front.length)
    (b : Bool) (back : BitVector) (ber u flipped : Nat) :
    (Channel.bsc (front ++ b :: back) ber).onDraw u (loopWork out (back.length + 1) flipped)
      = loopWork (out ++ [b ^^ decide (u < ber)]) back.length
          (flipped + (decide (u < ber)).toNat) := by
  have hcw : setAt (out ++ newVector (back.length + 1)) (out.length + 1) (b ^^ decide (u < ber))
      = (out ++ [b ^^ decide (u < ber)]) ++ newVector back.length := by
    simp [newVector, List.replicate_succ, setAt_append_length_succ]
  have hbit : bitAt (front ++ b :: back) (out.length + 1) = b := by
    rw [hlen, bitAt_append_length_succ]
  simp [onDraw_bsc, applyFlip, loopWork, bern, hbit, hcw]

/-- BSC's loop from any point on, with a draw for each position that is left: every position is
decided by its draw, the flips are counted, and the later draws stay (R134). -/
theorem pull_bsc_loopWork (ber : Nat) (later : List Nat) {front back out : BitVector}
    {draws : List Nat} (flipped : Nat) (hout : out.length = front.length)
    (hdraws : draws.length = back.length) :
    (Channel.bsc (front ++ back) ber).pull (loopWork out back.length flipped) (draws ++ later)
      = (loopWork (out ++ List.zipWith (fun b u => b ^^ decide (u < ber)) back draws) 0
          (flipped + draws.countP fun u => decide (u < ber)), later) := by
  induction back generalizing front out draws flipped with
  | nil =>
    obtain rfl := List.length_eq_zero_iff.1 hdraws
    have hlen : (Channel.bsc (front ++ []) ber).bitsIn.length = out.length + 0 := by
      simp [Channel.bitsIn, hout]
    simpa using Channel.pull_finished ((finished_loopWork hlen (flipped := flipped)).2 rfl) later
  | cons b back ih =>
    obtain ⟨u, draws, rfl⟩ := List.exists_cons_of_length_eq_add_one hdraws
    have hlen : (Channel.bsc (front ++ b :: back) ber).bitsIn.length
        = out.length + (back.length + 1) := by simp [Channel.bitsIn, hout]
    have hmore : (Channel.bsc (front ++ b :: back) ber).finished
        (loopWork out (back.length + 1) flipped) = false := by
      simp [Bool.eq_false_iff, finished_loopWork hlen]
    have hrest := ih (front := front ++ [b]) (out := out ++ [b ^^ decide (u < ber)])
      (flipped + (decide (u < ber)).toNat) (by simp [hout]) (by simpa using hdraws)
    have hcount : (u :: draws).countP (fun u => decide (u < ber))
        = (decide (u < ber)).toNat + draws.countP fun u => decide (u < ber) := by
      by_cases hu : u < ber <;> simp [hu, Nat.add_comm]
    rw [List.length_cons, List.cons_append, Channel.pull_cons hmore, onDraw_bsc_loopWork hout,
      hcount, ← Nat.add_assoc]
    simpa using hrest

/-- BSC's whole loop with its n draws ready (R134). -/
theorem pull_bsc_start (bits : BitVector) (ber : Nat) (later : List Nat) {draws : List Nat}
    (hdraws : draws.length = bits.length) :
    (Channel.bsc bits ber).pull (Channel.bsc bits ber).start (draws ++ later)
      = (loopWork (List.zipWith (fun b u => b ^^ decide (u < ber)) bits draws) 0
          (draws.countP fun u => decide (u < ber)), later) := by
  simpa [start_eq_loopWork, Channel.bitsIn] using
    pull_bsc_loopWork ber later (front := []) (out := []) 0 rfl hdraws

/-- BSC with legal operands and its n draws ready answers what its loop built (R134). -/
theorem startChannel_bsc {s : State} {bits : BitVector} {ber : Nat} {draws later : List Nat}
    (hfits : overCapacity s.config bits.length = false) (hber : ber ≤ 2 ^ s.config.probW)
    (hrnd : s.rnd = draws ++ later) (hdraws : draws.length = bits.length) :
    s.startChannel (.bsc bits ber)
      = { s with rnd := later }.respond
          (.transmitted (List.zipWith (fun b u => b ^^ decide (u < ber)) bits draws)
            (draws.countP fun u => decide (u < ber))) := by
  have hlegal : ∀ p ∈ (Channel.bsc bits ber).probs, p ≤ 2 ^ s.config.probW := by
    simpa [Channel.probs] using hber
  have hpull := pull_bsc_start bits ber later hdraws
  rw [← hrnd] at hpull
  rw [State.startChannel_of_no_error ((channelError_eq_none_iff _ _).2 ⟨hfits, hlegal⟩),
    State.transmit_of_pull hpull ((finished_loopWork (by simp [Channel.bitsIn, hdraws])).2 rfl),
    loopWork_zero_cw]
  rfl

/-- RSV = 0 and OP = 5 make BSC's command word (R69). -/
theorem encode_bsc_word (bits : BitVector) (ber : Nat) :
    (encode (.bsc bits ber)).word = 0x05#8 := by
  have hword : wordOfOp 0b0101#4 = 0x05#8 := by decide
  exact hword

/-- Settles O32: the operand checks end the command before its first draw, and its loop decides each
position by its own draw. -/
theorem bscFollowsItsRule : Obligations.BscFollowsItsRule := by
  refine fun s bits ber => ⟨encode_bsc_word bits ber, fun hover => ?_, fun hfits hber => ?_,
    fun draws later hfits hber hrnd hdraws => ?_⟩
  · rw [exec_bsc, State.startChannel_of_error (channelError_of_overCapacity hover)]; rfl
  · exact (channelsRejectAProbabilityAboveOne s bits ber 0 0 0 hfits).1 hber
  · rw [exec_bsc, startChannel_bsc hfits hber hrnd hdraws]; rfl

end Sys2Proof.Machine
end

section
/-! PROOFS. GE decides each position as BSC would at the flip probability of the state it finds, and then steps the state (spec/44_channel_ge.md R146 to R148). -/

namespace Sys2Proof.Machine

/-- The state behind a transition draw in the state `st` (R147). -/
def stepState (pGB pBG : Nat) (st : ChannelState) (transitionDraw : Nat) : ChannelState :=
  if bern (leaveProb pGB pBG st) transitionDraw then st.other else st

theorem stepState_good (pGB pBG transitionDraw : Nat) :
    stepState pGB pBG .good transitionDraw = if transitionDraw < pGB then .bad else .good :=
  if_congr decide_eq_true_iff rfl rfl

theorem stepState_bad (pGB pBG transitionDraw : Nat) :
    stepState pGB pBG .bad transitionDraw = if transitionDraw < pBG then .good else .bad :=
  if_congr decide_eq_true_iff rfl rfl

/-- The first pair of draws decides the flip by the state found, and the later ones go on from the
state behind it (R147). -/
theorem geDecisions_cons (pGB pBG pG pB : Nat) (st : ChannelState) (pair : Nat × Nat)
    (pairs : List (Nat × Nat)) :
    geDecisions pGB pBG pG pB st (pair :: pairs)
      = bern (flipProb pG pB st) pair.1
        :: geDecisions pGB pBG pG pB (stepState pGB pBG st pair.2) pairs := by
  cases st with
  | good => rw [stepState_good]; rfl
  | bad => rw [stepState_bad]; rfl

theorem length_geDecisions (pGB pBG pG pB : Nat) (st : ChannelState) (pairs : List (Nat × Nat)) :
    (geDecisions pGB pBG pG pB st pairs).length = pairs.length := by
  induction pairs generalizing st with
  | nil => simp [geDecisions]
  | cons pair pairs ih => simp [geDecisions_cons, ih]

theorem pullOrder_cons (pair : Nat × Nat) (pairs : List (Nat × Nat)) :
    pullOrder (pair :: pairs) = pair.1 :: pair.2 :: pullOrder pairs := rfl

/-- GE's two draws of a position are BSC's one draw at the flip probability of the state found, and
then the step of the state (R147, R150). -/
theorem onDraw_ge_position (bits : BitVector) (pGB pBG pG pB flipDraw transitionDraw : Nat)
    {w : Work} (hphase : w.phase = .flip) :
    (Channel.ge bits pGB pBG pG pB).onDraw transitionDraw
        ((Channel.ge bits pGB pBG pG pB).onDraw flipDraw w)
      = { (Channel.bsc bits (flipProb pG pB w.s)).onDraw flipDraw w with
          s := stepState pGB pBG w.s transitionDraw } := by
  rw [onDraw_ge_flip _ _ _ _ _ _ _ hphase, onDraw_ge_transition _ _ _ _ _ _ _ rfl, onDraw_bsc,
    ← hphase]
  rfl

/-- GE's flip draw leaves the loop where it stands, so the transition draw is pulled too (R150). -/
theorem finished_onDraw_ge_flip (bits : BitVector) (pGB pBG pG pB flipDraw : Nat) {w : Work}
    (hphase : w.phase = .flip) :
    (Channel.ge bits pGB pBG pG pB).finished
        ((Channel.ge bits pGB pBG pG pB).onDraw flipDraw w)
      = (Channel.ge bits pGB pBG pG pB).finished w := by
  rw [onDraw_ge_flip _ _ _ _ _ _ _ hphase]; rfl

/-- The working state of GE's loop between two positions: that of BSC's loop, in the state `st`. -/
def geLoopWork (st : ChannelState) (out : BitVector) (left flipped : Nat) : Work :=
  { loopWork out left flipped with s := st }

theorem start_eq_geLoopWork (c : Channel) : c.start = geLoopWork .good [] c.bitsIn.length 0 := rfl

theorem geLoopWork_zero_cw (st : ChannelState) (out : BitVector) (flipped : Nat) :
    (geLoopWork st out 0 flipped).cw = out :=
  loopWork_zero_cw out flipped

theorem finished_geLoopWork {c : Channel} {out : BitVector} {left flipped : Nat}
    (st : ChannelState) (hlen : c.bitsIn.length = out.length + left) :
    c.finished (geLoopWork st out left flipped) = true ↔ left = 0 :=
  finished_loopWork (flipped := flipped) hlen

/-- Two draws decide the bit behind those decided, by the state found, and step the state. -/
theorem onDraw_ge_geLoopWork {front out : BitVector} (hout : out.length = front.length)
    (st : ChannelState) (b : Bool) (back : BitVector)
    (pGB pBG pG pB flipDraw transitionDraw flipped : Nat) :
    (Channel.ge (front ++ b :: back) pGB pBG pG pB).onDraw transitionDraw
        ((Channel.ge (front ++ b :: back) pGB pBG pG pB).onDraw flipDraw
          (geLoopWork st out (back.length + 1) flipped))
      = geLoopWork (stepState pGB pBG st transitionDraw)
          (out ++ [b ^^ bern (flipProb pG pB st) flipDraw]) back.length
          (flipped + (bern (flipProb pG pB st) flipDraw).toNat) := by
  have hbsc := onDraw_bsc_loopWork hout b back (flipProb pG pB st) flipDraw flipped
  exact (onDraw_ge_position _ _ _ _ _ _ _ rfl).trans
    (congrArg (fun w : Work => { w with s := stepState pGB pBG st transitionDraw }) hbsc)

/-- GE's loop from any point on, with a pair of draws for each position that is left: the positions
take the decisions of R147 from the present state on, the flips are counted, and the later draws
stay. The state behind the last position is discarded (R154). -/
theorem pull_ge_geLoopWork (pGB pBG pG pB : Nat) (later : List Nat) {front back out : BitVector}
    {pairs : List (Nat × Nat)} (st : ChannelState) (flipped : Nat)
    (hout : out.length = front.length) (hpairs : pairs.length = back.length) :
    ∃ last, (Channel.ge (front ++ back) pGB pBG pG pB).pull
        (geLoopWork st out back.length flipped) (pullOrder pairs ++ later)
      = (geLoopWork last (out ++ List.zipWith xor back (geDecisions pGB pBG pG pB st pairs)) 0
          (flipped + (geDecisions pGB pBG pG pB st pairs).countP id), later) := by
  induction back generalizing front out pairs st flipped with
  | nil =>
    obtain rfl := List.length_eq_zero_iff.1 hpairs
    have hlen : (Channel.ge (front ++ []) pGB pBG pG pB).bitsIn.length = out.length + 0 := by
      simp [Channel.bitsIn, hout]
    have hover := (finished_geLoopWork st hlen (flipped := flipped)).2 rfl
    exact ⟨st, by simpa [geDecisions, pullOrder] using Channel.pull_finished hover later⟩
  | cons b back ih =>
    obtain ⟨pair, pairs, rfl⟩ := List.exists_cons_of_length_eq_add_one hpairs
    have hlen : (Channel.ge (front ++ b :: back) pGB pBG pG pB).bitsIn.length
        = out.length + (back.length + 1) := by simp [Channel.bitsIn, hout]
    have hmore : (Channel.ge (front ++ b :: back) pGB pBG pG pB).finished
        (geLoopWork st out (back.length + 1) flipped) = false := by
      simp [Bool.eq_false_iff, finished_geLoopWork st hlen]
    have hmid := (finished_onDraw_ge_flip (front ++ b :: back) pGB pBG pG pB pair.1
      (w := geLoopWork st out (back.length + 1) flipped) rfl).trans hmore
    obtain ⟨last, hrest⟩ := ih (front := front ++ [b])
      (out := out ++ [b ^^ bern (flipProb pG pB st) pair.1]) (stepState pGB pBG st pair.2)
      (flipped + (bern (flipProb pG pB st) pair.1).toNat) (by simp [hout]) (by simpa using hpairs)
    have hcount (d : Bool) (ds : List Bool) : (d :: ds).countP id = d.toNat + ds.countP id := by
      cases d <;> simp [Nat.add_comm]
    refine ⟨last, ?_⟩
    rw [List.length_cons, pullOrder_cons, List.cons_append, List.cons_append,
      Channel.pull_cons hmore, Channel.pull_cons hmid, onDraw_ge_geLoopWork hout,
      geDecisions_cons, hcount, ← Nat.add_assoc]
    simpa using hrest

/-- GE's whole loop with its 2n draws ready: its decisions are made from Good on (R146, R148). -/
theorem pull_ge_start (bits : BitVector) (pGB pBG pG pB : Nat) (later : List Nat)
    {pairs : List (Nat × Nat)} (hpairs : pairs.length = bits.length) :
    ∃ last, (Channel.ge bits pGB pBG pG pB).pull (Channel.ge bits pGB pBG pG pB).start
        (pullOrder pairs ++ later)
      = (geLoopWork last (List.zipWith xor bits (geDecisions pGB pBG pG pB .good pairs)) 0
          ((geDecisions pGB pBG pG pB .good pairs).countP id), later) := by
  simpa [start_eq_geLoopWork, Channel.bitsIn] using
    pull_ge_geLoopWork pGB pBG pG pB later (front := []) (out := []) .good 0 rfl hpairs

/-- GE with legal operands and its 2n draws ready answers what its loop built from Good on (R146,
R148). -/
theorem startChannel_ge {s : State} {bits : BitVector} {pGB pBG pG pB : Nat}
    {pairs : List (Nat × Nat)} {later : List Nat}
    (hfits : overCapacity s.config bits.length = false)
    (hlegal : ∀ p ∈ (Channel.ge bits pGB pBG pG pB).probs, p ≤ 2 ^ s.config.probW)
    (hrnd : s.rnd = pullOrder pairs ++ later) (hpairs : pairs.length = bits.length) :
    s.startChannel (.ge bits pGB pBG pG pB)
      = { s with rnd := later }.respond
          (.transmitted (List.zipWith xor bits (geDecisions pGB pBG pG pB .good pairs))
            ((geDecisions pGB pBG pG pB .good pairs).countP id)) := by
  obtain ⟨last, hpull⟩ := pull_ge_start bits pGB pBG pG pB later hpairs
  rw [← hrnd] at hpull
  have hdecisions : (geDecisions pGB pBG pG pB .good pairs).length = bits.length :=
    (length_geDecisions ..).trans hpairs
  have hover : (Channel.ge bits pGB pBG pG pB).finished
      (geLoopWork last (List.zipWith xor bits (geDecisions pGB pBG pG pB .good pairs)) 0
        ((geDecisions pGB pBG pG pB .good pairs).countP id)) = true :=
    (finished_geLoopWork last (by simp [Channel.bitsIn, hdecisions])).2 rfl
  rw [State.startChannel_of_no_error ((channelError_eq_none_iff _ _).2 ⟨hfits, hlegal⟩),
    State.transmit_of_pull hpull hover, geLoopWork_zero_cw]
  rfl

/-- RSV = 0 and OP = 6 make GE's command word (R69). -/
theorem encode_ge_word (bits : BitVector) (pGB pBG pG pB : Nat) :
    (encode (.ge bits pGB pBG pG pB)).word = 0x06#8 := by
  have hword : wordOfOp 0b0110#4 = 0x06#8 := by decide
  exact hword

/-- Settles O36: the operand checks end the command before its first draw, and its loop decides each
position by the pair of draws in its turn and the state found there. -/
theorem geFollowsItsRule : Obligations.GeFollowsItsRule := by
  refine fun s bits pGB pBG pG pB => ⟨encode_ge_word bits pGB pBG pG pB, fun hover => ?_,
    fun hfits hillegal => ?_, fun pairs later hfits hpGB hpBG hpG hpB hrnd hpairs => ?_⟩
  · rw [exec_ge, State.startChannel_of_error (channelError_of_overCapacity hover)]; rfl
  · exact (channelsRejectAProbabilityAboveOne s bits pGB pBG pG pB hfits).2 hillegal
  · have hlegal : ∀ p ∈ (Channel.ge bits pGB pBG pG pB).probs, p ≤ 2 ^ s.config.probW := by
      simp [Channel.probs, hpGB, hpBG, hpG, hpB]
    rw [exec_ge, startChannel_ge hfits hlegal hrnd hpairs]; rfl

end Sys2Proof.Machine
end

section
/-! PROOFS. DIFF's count over the positions of the common prefix is the count of the ones of the xor of the two words, which ends with the shorter one (spec/45_difference_counter.md R160, R161). -/

namespace Sys2Proof.Machine

/-- Inside the vector the 1-based reading is the list's own (R8). -/
theorem bitAt_one_add_eq_getElem {v : BitVector} {k : Nat} (h : k < v.length) :
    bitAt v (1 + k) = v[k] := by
  rw [bitAt, Nat.add_sub_cancel_left, List.getD_eq_getElem v false h]

theorem zipWith_xor_eq_map_positions (a b : BitVector) :
    List.zipWith xor a b
      = (positions (min a.length b.length)).map fun j => bitAt a j != bitAt b j := by
  refine List.ext_getElem (by simp) fun k hzip _ => ?_
  have hk : k < min a.length b.length := by simpa using hzip
  obtain ⟨ha, hb⟩ := lt_min_iff.1 hk
  simp [positions, bitAt_one_add_eq_getElem ha, bitAt_one_add_eq_getElem hb]

theorem prefixDifferences_eq_countP_zipWith_xor (a b : BitVector) :
    prefixDifferences a b = (List.zipWith xor a b).countP id := by
  rw [zipWith_xor_eq_map_positions, List.countP_map]
  rfl

theorem countDifferences_eq (a b : BitVector) :
    countDifferences a b
      = (List.zipWith xor a b).countP id + (max a.length b.length - min a.length b.length) := by
  rw [countDifferences, prefixDifferences_eq_countP_zipWith_xor, absDiff_eq_max_sub_min]

theorem diffResponse_eq (cfg : Config) (a b : BitVector) :
    diffResponse cfg a b
      = if overCapacity cfg a.length = true ∨ overCapacity cfg b.length = true then
          .bare .capacityExceeded
        else .counted (countDifferences a b) := by
  split
  case isTrue hover => exact diffResponse_of_overCapacity hover
  case isFalse hfits =>
    obtain ⟨hover, -⟩ | ⟨-, -, hwork⟩ := diffWork_cases cfg a b
    · exact absurd hover hfits
    · rw [diffResponse, hwork]

/-- RSV = 0 and OP = 7 make DIFF's command word (R69). -/
theorem encode_diff_word (a b : BitVector) : (encode (.diff a b)).word = 0x07#8 := by
  have hword : wordOfOp 0b0111#4 = 0x07#8 := by decide
  exact hword

/-- Settles O43: the two capacity checks decide the answer, and the count it carries is read off the
xor of the common prefix. -/
theorem diffFollowsItsRule : Obligations.DiffFollowsItsRule := by
  refine fun s a b => ⟨encode_diff_word a b, ?_⟩
  rw [exec_diff, diffResponse_eq, countDifferences_eq]
  rfl

end Sys2Proof.Machine
end

section
/-! PROOFS. The decoder and the encoder are inverse to each other (spec/30_encoding.md R60, R63, R66, R69). -/

namespace Sys2Proof

variable {o : Offer} {i : Instr} {stream rest : List Token}

@[simp] theorem readValue_value (n : Nat) (rest : List Token) :
    readValue (.value n :: rest) = some (n, rest) := rfl

@[simp] theorem readEnd_nil (i : Instr) : readEnd i [] = some i := rfl

theorem readBits_writeBits_append (v : BitVector) (rest : List Token) :
    readBits (writeBits v ++ rest) = some (v, rest) := by
  simp [readBits, writeBits, readBitRun_written]

theorem readBits_writeBits (v : BitVector) : readBits (writeBits v) = some (v, []) := by
  simpa using readBits_writeBits_append v []

/-- The operand fields a command writes are assembled to the command again (R63, R69). -/
theorem assemble_operands (i : Instr) : assemble i.opcode.toNat i.operands = some i := by
  cases i with
  | hparam m => simp [assemble, Instr.opcode, Instr.operands]
  | henc data => simp [assemble, Instr.opcode, Instr.operands, readBits_writeBits]
  | hsyn v => simp [assemble, Instr.opcode, Instr.operands, readBits_writeBits]
  | hdec v => simp [assemble, Instr.opcode, Instr.operands, readBits_writeBits]
  | bsc bits ber => simp [assemble, Instr.opcode, Instr.operands, readBits_writeBits_append]
  | ge bits pGB pBG pG pB =>
    simp [assemble, Instr.opcode, Instr.operands, readBits_writeBits_append]
  | diff a b =>
    simp [assemble, Instr.opcode, Instr.operands, readBits_writeBits_append, readBits_writeBits]

/-- A command's word selects the fields of its constructor. -/
theorem fieldsOfWord_encode (i : Instr) :
    fieldsOfWord (encode i).word = some (Laws.Encoding.fieldTypes i) := by
  rw [encode, fieldsOfWord_wordOfOp]
  cases i <;> rfl

theorem decode_eq_ok_iff :
    decode o = .ok i
      ↔ fieldsOfWord o.word ≠ none ∧ assemble (opOf o.word).toNat o.operands = some i := by
  unfold decode
  split
  · simp [*]
  · split <;> simp [*]

/-- Settles O1: the word selects the command's OP, and its operand fields are read as written. -/
theorem decodeOfEncodeIsTheCommand : Obligations.DecodeOfEncodeIsTheCommand := by
  refine fun i => decode_eq_ok_iff.2 ⟨by simp [fieldsOfWord_encode], ?_⟩
  rw [encode, opOf_wordOfOp, assemble_operands]

theorem eq_value_cons_of_readValue {n : Nat} (h : readValue stream = some (n, rest)) :
    stream = .value n :: rest := by
  unfold readValue at h
  split at h
  · cases h; rfl
  · cases h

theorem eq_writeBits_append_of_readBits {v : BitVector} (h : readBits stream = some (v, rest)) :
    stream = writeBits v ++ rest := by
  unfold readBits at h
  split at h
  · rename_i len bits hlen
    obtain ⟨rfl, rfl⟩ := readBitRun_inverts h
    rw [eq_value_cons_of_readValue hlen, writeBits, List.cons_append]
  · cases h

theorem eq_nil_of_readEnd {j : Instr} (h : readEnd i stream = some j) : stream = [] := by
  unfold readEnd at h
  split at h
  · exact List.isEmpty_iff.1 ‹_›
  · cases h

/-- No operand token is dropped: what is assembled to a command is what the command writes. -/
theorem operands_of_assemble {op : Nat} (h : assemble op stream = some i) :
    i.operands = stream := by
  unfold assemble at h
  split at h
  case h_8 => cases h
  all_goals simp only [bind, Option.bind_eq_some_iff, Prod.exists] at h
  case h_1 =>
    obtain ⟨m, rest, hm, hend⟩ := h
    rw [eq_value_cons_of_readValue hm, eq_of_readEnd hend, eq_nil_of_readEnd hend]; rfl
  case h_2 | h_3 | h_4 =>
    obtain ⟨v, rest, hv, hend⟩ := h
    rw [eq_writeBits_append_of_readBits hv, eq_of_readEnd hend, eq_nil_of_readEnd hend,
      List.append_nil]
    rfl
  case h_5 =>
    obtain ⟨bits, _, hbits, ber, _, hber, hend⟩ := h
    rw [eq_writeBits_append_of_readBits hbits, eq_value_cons_of_readValue hber,
      eq_of_readEnd hend, eq_nil_of_readEnd hend]
    rfl
  case h_6 =>
    obtain ⟨bits, _, hbits, _, _, hGB, _, _, hBG, _, _, hG, _, _, hB, hend⟩ := h
    rw [eq_writeBits_append_of_readBits hbits, eq_value_cons_of_readValue hGB,
      eq_value_cons_of_readValue hBG, eq_value_cons_of_readValue hG,
      eq_value_cons_of_readValue hB, eq_of_readEnd hend, eq_nil_of_readEnd hend]
    rfl
  case h_7 =>
    obtain ⟨a, _, ha, b, _, hb, hend⟩ := h
    rw [eq_writeBits_append_of_readBits ha, eq_writeBits_append_of_readBits hb,
      eq_of_readEnd hend, eq_nil_of_readEnd hend, List.append_nil]
    rfl

theorem rsvOf_of_fieldsOfWord_ne_none {w : CmdWord} (h : fieldsOfWord w ≠ none) :
    rsvOf w = 0#4 := by
  unfold fieldsOfWord at h
  split at h
  · assumption
  · exact absurd rfl h

/-- Settles O2: RSV and OP make up the word, and the operand tokens are those the command writes. -/
theorem encodeOfDecodeIsTheTransaction : Obligations.EncodeOfDecodeIsTheTransaction := by
  intro o i h
  obtain ⟨hfields, hassemble⟩ := decode_eq_ok_iff.1 h
  have hword : wordOfOp i.opcode = o.word := by
    rw [opcode_of_decode h, wordOfOp_opOf _ (rsvOf_of_fieldsOfWord_ne_none hfields)]
  rw [encode, hword, operands_of_assemble hassemble]

end Sys2Proof
end

section
/-! PROOFS. What one step does, by the level of RST, the sequencer and the transaction offered first (spec/10_state.md R22, spec/70_reset_and_hazards.md R190, spec/30_encoding.md R67, R70). -/

namespace Sys2Proof.Machine

variable {s t : State} {o : Offer} {waiting : List Offer} {i : Instr}

theorem step_of_advance (h : s.advance = .next t) : step s = .next t.arrive := by
  simp [step, h]

theorem advance_of_rst (hrst : s.rst = true) : s.advance = .next s.abandon := by
  simp [State.advance, hrst]

theorem advance_of_busy {c : Channel} {w : Work} (hrst : s.rst = false)
    (hseq : s.seq = .busy c w) : s.advance = .next (s.transmit c w) := by
  simp [State.advance, hrst, hseq]

theorem advance_of_idle (hrst : s.rst = false) (hseq : s.seq = .idle) :
    s.advance = s.accept := by
  simp [State.advance, hrst, hseq]

theorem step_of_accept (hrst : s.rst = false) (hseq : s.seq = .idle)
    (h : s.accept = .next t) : step s = .next t.arrive :=
  step_of_advance ((advance_of_idle hrst hseq).trans h)

theorem accept_of_nothing_offered (hcmd : s.cmd = []) : s.accept = .next s := by
  simp [State.accept, hcmd]

theorem accept_of_decode_ok (hcmd : s.cmd = o :: waiting) (hdec : decode o = .ok i) :
    s.accept = exec i { s with cmd := waiting } := by
  simp [State.accept, hcmd, hdec]

theorem accept_of_invalidCommand (hcmd : s.cmd = o :: waiting)
    (hdec : decode o = .error .invalidCommand) :
    s.accept = .next ({ s with cmd := waiting }.respond (.bare .invalidCommand)) := by
  simp [State.accept, hcmd, hdec]

theorem accept_of_malformedOperands (hcmd : s.cmd = o :: waiting)
    (hdec : decode o = .error .malformedOperands) :
    s.accept
      = if (offeredLengths o).any (overCapacity s.config) then
          .next ({ s with cmd := waiting }.respond (.bare .capacityExceeded))
        else .refused .malformedOperands := by
  simp [State.accept, hcmd, hdec]

/-- No command's meaning stops (R180). -/
theorem exists_exec_eq_next (i : Instr) (s : State) : ∃ t, exec i s = .next t := by
  obtain ⟨answer, hexec⟩ | ⟨c, hexec⟩ := exec_cases i
  · exact ⟨_, hexec s⟩
  · exact ⟨_, hexec s⟩

/-- Settles O5: an IDLE block accepts, and accepting a transaction that decodes is running it. -/
theorem stepRunsTheDecodedCommand : Obligations.StepRunsTheDecodedCommand := by
  intro s o waiting i hrst hseq hcmd hdec
  obtain ⟨t, hexec⟩ := exists_exec_eq_next i { s with cmd := waiting }
  rw [step_of_accept hrst hseq ((accept_of_decode_ok hcmd hdec).trans hexec), hexec]

/-- A reserved RSV or OP names no operand fields (R70, R71). -/
theorem fieldsOfWord_eq_none_of_reserved {w : CmdWord}
    (h : w.extractLsb' 4 4 ≠ 0#4 ∨ w.extractLsb' 0 4 = 0#4 ∨ 8 ≤ (w.extractLsb' 0 4).toNat) :
    fieldsOfWord w = none := by
  revert w; decide

/-- An IDLE block that gives an error status to the transaction offered first takes it off the port
and changes nothing else. -/
theorem step_of_accept_bare {status : Status} (hrst : s.rst = false) (hseq : s.seq = .idle)
    (h : s.accept = .next ({ s with cmd := waiting }.respond (.bare status))) :
    step s
      = .next { s with cmd := waiting, resp := s.resp ++ [Response.bare status] }.arrive := by
  rw [step_of_accept hrst hseq h, State.respond, ← hseq]

/-- Settles O6: a reserved word decodes to InvalidCommand. -/
theorem reservedWordAnswersInvalidCommand : Obligations.ReservedWordAnswersInvalidCommand := by
  intro s o waiting hrst hseq hcmd hreserved
  have hdec := (decode_eq_invalidCommand_iff o).2 (fieldsOfWord_eq_none_of_reserved hreserved)
  exact step_of_accept_bare hrst hseq (accept_of_invalidCommand hcmd hdec)

/-- Settles O8: nothing is accepted, so only the scheduled event lands. -/
theorem idleBlockWaitsForAnOffer : Obligations.IdleBlockWaitsForAnOffer :=
  fun _ hrst hseq hcmd => step_of_accept hrst hseq (accept_of_nothing_offered hcmd)

/-- Settles O11: a step with RST asserted is State.abandon. -/
theorem resetAbandonsTheCommandInFlight : Obligations.ResetAbandonsTheCommandInFlight :=
  fun _ hrst => step_of_advance (advance_of_rst hrst)

/-- Settles O10: a loop that is not over and finds no draw leaves its working state as it is. -/
theorem starvedCommandWaits : Obligations.StarvedCommandWaits := by
  intro s c w hrst hseq hidx hrnd
  have hmore : c.finished w = false := by
    rw [Bool.eq_false_iff, ne_eq, finished_iff]; omega
  have hpull : c.pull w s.rnd = (w, []) := by rw [hrnd]; rfl
  have hwait : s.transmit c w = s := by
    rw [State.transmit_of_not_finished (by rwa [hpull]), hpull, ← hrnd, ← hseq]
  rw [step_of_advance (advance_of_busy hrst hseq), hwait]

/-- Settles O13: the event scheduled first is received at its own port. -/
theorem scheduledEventLandsAtItsPort : Obligations.ScheduledEventLandsAtItsPort := by
  refine fun s later => ⟨fun o h => ?_, fun u h => ?_, fun level h => ?_,
    s.arrive_of_nothing_scheduled⟩
  · rw [s.arrive_of_scheduled h, State.receive_offer]
  · rw [s.arrive_of_scheduled h, State.receive_draw]
  · rw [s.arrive_of_scheduled h, State.receive_rst]

/-- Accepting stops only on operand fields that are not in order, within capacity (log 8). -/
theorem accept_cases (s : State) :
    (∃ t, s.accept = .next t)
      ∨ s.accept = .refused .malformedOperands
        ∧ ∃ o waiting, s.cmd = o :: waiting ∧ decode o = .error .malformedOperands
          ∧ (offeredLengths o).any (overCapacity s.config) = false := by
  cases hcmd : s.cmd with
  | nil => exact .inl ⟨s, accept_of_nothing_offered hcmd⟩
  | cons o waiting =>
    cases hdec : decode o with
    | ok i =>
      obtain ⟨t, hexec⟩ := exists_exec_eq_next i { s with cmd := waiting }
      exact .inl ⟨t, (accept_of_decode_ok hcmd hdec).trans hexec⟩
    | error reason =>
      cases reason with
      | invalidCommand => exact .inl ⟨_, accept_of_invalidCommand hcmd hdec⟩
      | malformedOperands =>
        have haccept := accept_of_malformedOperands hcmd hdec
        cases hlen : (offeredLengths o).any (overCapacity s.config) with
        | true => exact .inl ⟨_, haccept.trans (if_pos hlen)⟩
        | false =>
          exact .inr ⟨haccept.trans (if_neg (by simp [hlen])), o, waiting, rfl, hdec, hlen⟩

/-- A step answers, or an IDLE block stops on what it is offered. -/
theorem step_next_or_refused (s : State) :
    (∃ t, step s = .next t)
      ∨ step s = .refused .malformedOperands ∧ s.rst = false ∧ s.seq = .idle
        ∧ ∃ o waiting, s.cmd = o :: waiting ∧ decode o = .error .malformedOperands
          ∧ (offeredLengths o).any (overCapacity s.config) = false := by
  cases hrst : s.rst with
  | true => exact .inl ⟨_, step_of_advance (advance_of_rst hrst)⟩
  | false =>
    cases hseq : s.seq with
    | busy c w => exact .inl ⟨_, step_of_advance (advance_of_busy hrst hseq)⟩
    | idle =>
      obtain ⟨t, h⟩ | ⟨h, hoffer⟩ := accept_cases s
      · exact .inl ⟨_, step_of_accept hrst hseq h⟩
      · exact .inr ⟨by simp [step, advance_of_idle hrst hseq, h], rfl, rfl, hoffer⟩

theorem step_of_malformedOperands (hrst : s.rst = false) (hseq : s.seq = .idle)
    (hcmd : s.cmd = o :: waiting) (hdec : decode o = .error .malformedOperands)
    (hlen : (offeredLengths o).any (overCapacity s.config) = false) :
    step s = .refused .malformedOperands := by
  simp [step, advance_of_idle hrst hseq, accept_of_malformedOperands hcmd hdec, hlen]

/-- Settles O7: a step answers but for the one stop of log 8. -/
theorem stepStopsOnlyOnMalformedOperands : Obligations.StepStopsOnlyOnMalformedOperands := by
  refine fun s => ⟨fun reason _ => (by cases reason), fun reason => ⟨fun h => ?_, ?_⟩⟩
  · obtain ⟨t, hnext⟩ | ⟨hrefused, hstop⟩ := step_next_or_refused s
    · rw [hnext] at h; cases h
    · exact ⟨Host.Outcome.refused.inj (h.symm.trans hrefused), hstop⟩
  · rintro ⟨rfl, hrst, hseq, o, waiting, hcmd, hdec, hlen⟩
    exact step_of_malformedOperands hrst hseq hcmd hdec hlen

end Sys2Proof.Machine
end

section
/-! PROOFS. A LEN value above N_MAX ends a transaction before the form of its operand fields is examined (spec/30_encoding.md R67, spec/60_exceptions.md R178). -/

namespace Sys2Proof.Machine

variable {s : State} {o : Offer} {waiting : List Offer} {len : Nat} {rest : List Token}

/-- Every command's fields begin with a LEN value: a LEN field, or the length part of a BITS field
(R63). -/
theorem head_of_fieldsOfWord {w : CmdWord} {fields : List FieldType}
    (h : fieldsOfWord w = some fields) :
    fields.head? = some .len ∨ fields.head? = some .bits := by
  have hhead : ∀ w : CmdWord, ∀ fields ∈ fieldsOfWord w,
      fields.head? = some .len ∨ fields.head? = some .bits := by decide
  exact hhead w fields h

/-- The first LEN value is found whatever stands behind it. -/
theorem mem_offeredLengths_of_head (hfields : fieldsOfWord o.word ≠ none)
    (hoperands : o.operands = .value len :: rest) : len ∈ offeredLengths o := by
  obtain ⟨fields, hsome⟩ := Option.ne_none_iff_exists'.1 hfields
  rw [offeredLengths, hsome, hoperands]
  obtain hhead | hhead := head_of_fieldsOfWord hsome
  · obtain ⟨later, rfl⟩ := List.head?_eq_some_iff.1 hhead
    simp [lengthsIn]
  · obtain ⟨later, rfl⟩ := List.head?_eq_some_iff.1 hhead
    exact head_mem_lengthsIn_bits later len rest

/-- DIFF's second LEN value is found behind a whole A. -/
theorem mem_offeredLengths_of_second {a : BitVector} (hword : o.word = 0x07#8)
    (hoperands : o.operands = writeBits a ++ .value len :: rest) : len ∈ offeredLengths o := by
  have hfields : fieldsOfWord o.word = some [.bits, .bits] := by rw [hword]; decide
  rw [offeredLengths, hfields, hoperands]
  dsimp only
  rw [lengthsIn_writeBits]
  exact List.mem_cons_of_mem _ (head_mem_lengthsIn_bits [] len rest)

/-- Fields that are in order are those of a command, which examines its lengths first itself; fields
that are not get the same status. -/
theorem accept_of_overCapacity (hcmd : s.cmd = o :: waiting)
    (hmem : len ∈ offeredLengths o) (hover : overCapacity s.config len = true) :
    s.accept = .next ({ s with cmd := waiting }.respond (.bare .capacityExceeded)) := by
  cases hdec : decode o with
  | ok i =>
    rw [← encodeOfDecodeIsTheTransaction o i hdec, offeredLengths_encode] at hmem
    rw [accept_of_decode_ok hcmd hdec]
    exact exec_of_operand_overCapacity hmem hover
  | error reason =>
    cases reason with
    | invalidCommand =>
      have hnone := (decode_eq_invalidCommand_iff o).1 hdec
      simp [offeredLengths, hnone] at hmem
    | malformedOperands =>
      have hany : (offeredLengths o).any (overCapacity s.config) = true :=
        List.any_eq_true.2 ⟨len, hmem, hover⟩
      rw [accept_of_malformedOperands hcmd hdec, if_pos hany]

/-- Settles O58: the length is among those the transaction offers. -/
theorem lenAboveCapacityComesBeforeOperandForm :
    Obligations.LenAboveCapacityComesBeforeOperandForm := by
  intro s o waiting bound len rest hrst hseq hcmd hbound hlow hhigh hlt hoperands
  have hfields : fieldsOfWord o.word ≠ none := fun hnone =>
    (fieldsOfWord_eq_none_iff o.word).1 hnone ⟨hlow, hhigh⟩
  have hmem : len ∈ offeredLengths o := by
    obtain hfirst | ⟨hword, a, hsecond⟩ := hoperands
    · exact mem_offeredLengths_of_head hfields hfirst
    · exact mem_offeredLengths_of_second hword hsecond
  have hover := (overCapacity_iff s.config len).2 ⟨bound, hbound, hlt⟩
  exact step_of_accept_bare hrst hseq (accept_of_overCapacity hcmd hmem hover)

end Sys2Proof.Machine
end

section
/-! PROOFS. The state after reset, the status numbers, and words and responses as they stand on the ports (spec/10_state.md R31, spec/60_exceptions.md R170, spec/30_encoding.md R61 to R66). -/

namespace Sys2Proof.Machine

/-- Settles O4: each word and its operand fields are the encoding of the command, but for 0x12,
whose RSV is not 0. -/
theorem wordsOfTheOpcodeMapDecode : Obligations.WordsOfTheOpcodeMapDecode := by
  have hdecode := decodeOfEncodeIsTheCommand
  exact ⟨hdecode (.hparam 4), hdecode (.henc [true, false]), hdecode (.hsyn [true]),
    hdecode (.hdec [false]), hdecode (.bsc [true] 26), hdecode (.ge [true] 64 128 0 192),
    hdecode (.diff [true] []), (decode_eq_invalidCommand_iff _).2 (by decide)⟩

/-- Settles O12: every field has its reset value. -/
theorem resetStateIsIdle : Obligations.ResetStateIsIdle :=
  ⟨fun c => ⟨State.resetWith_config c, State.resetWith_seq c, State.resetWith_resp c,
    State.resetWith_rst c, State.resetWith_cmd c, State.resetWith_rnd c,
    State.resetWith_inputs c⟩, rfl⟩

theorem Status.ofCode_code (status : Status) : Status.ofCode status.code = some status := by
  cases status <;> rfl

/-- 7 names no status, so no status has it (93 U6). -/
theorem Status.code_ne_seven (status : Status) : status.code ≠ 7#3 := fun h => by
  have hnone : Status.ofCode 7#3 = none := rfl
  rw [← h, Status.ofCode_code] at hnone
  cases hnone

/-- Settles O53: a status is read back from its number, and 7 names none. -/
theorem statusCodesNameTheStatuses : Obligations.StatusCodesNameTheStatuses :=
  ⟨fun status => ⟨status.ofCode_code, status.code_ne_seven⟩, rfl⟩

/-- A block right after reset holds no draw, no event, no command and no response that could be out
of bounds. -/
theorem sound_resetWith {c : Config} (h : c.legal = true) : (State.resetWith c).sound = true := by
  simp [State.sound, Sequencer.sound, h]

/-- Settles O55: the standard parameters are legal too. -/
theorem resetStateIsSound : Obligations.ResetStateIsSound :=
  ⟨fun _ => sound_resetWith, sound_resetWith (by decide)⟩

/-! What an absent and a valid field leave on RESP (R68). -/

@[simp] theorem numberField_none : numberField none = [] := rfl
@[simp] theorem numberField_some (x : Nat) : numberField (some x) = [.value x] := rfl
@[simp] theorem bitsField_none : bitsField none = [] := rfl
@[simp] theorem bitsField_some (v : BitVector) : bitsField (some v) = writeBits v := rfl

theorem transfer_bare (status : Status) :
    (Response.bare status).transfer = [.value status.code.toNat] := rfl

theorem transfer_encoded (v : BitVector) :
    (Response.encoded v).transfer = .value 0 :: writeBits v := by
  simp [Response.transfer, Response.encoded, Response.bare, Status.code]

theorem transfer_decoded (v : BitVector) :
    (Response.decoded v).transfer = .value 0 :: writeBits v ++ [.value 0] := by
  simp [Response.transfer, Response.decoded, Response.bare, Status.code]

theorem transfer_transmitted (v : BitVector) (flipped : Nat) :
    (Response.transmitted v flipped).transfer = .value 0 :: writeBits v ++ [.value flipped] := by
  simp [Response.transfer, Response.transmitted, Response.bare, Status.code]

/-- Settles O57: STATUS, and then the fields of R63 that the response carries, in their order. -/
theorem responsesLeaveAsTheirFields : Obligations.ResponsesLeaveAsTheirFields :=
  ⟨fun _ _ => rfl, transfer_encoded, fun _ _ => rfl, transfer_decoded, fun _ => rfl,
    transfer_transmitted, fun _ => rfl, by simp [transfer_bare, Status.code]⟩

end Sys2Proof.Machine
end

section
/-! PROOFS. The loop invariant of the channel commands: CW has the word's length, and FLIPPED counts the decided positions at which it differs from BITS_IN (spec/43_channel_bsc.md R135, spec/70_reset_and_hazards.md R195, R196). -/

namespace Sys2Proof.Machine

variable {s : State} {c : Channel} {w : Work} {bits : BitVector} {d : Bool}

/-- The positions among the first `n` at which `out` differs from `bits`. -/
def differingUpTo (n : Nat) (out bits : BitVector) : Nat :=
  (positions n).countP fun j => bitAt out j != bitAt bits j

/-- The invariant of a channel command's loop, from its start to its end: Work.consistent without
the claim that the loop goes on. -/
structure InLoop (c : Channel) (w : Work) : Prop where
  idx_pos : 1 ≤ w.idx
  decided_le : w.decided ≤ c.bitsIn.length
  length_cw : w.cw.length = c.bitsIn.length
  flipped_eq : w.flipped = differingUpTo w.decided w.cw c.bitsIn
  bsc_state : ∀ bits ber, c = .bsc bits ber → w.phase = .flip ∧ w.s = .good

theorem decided_of_flip (h : w.phase = .flip) : w.decided = w.idx - 1 := by
  simp [Work.decided, h]

theorem decided_of_transition (h : w.phase = .transition) : w.decided = w.idx := by
  simp [Work.decided, h]

/-- A waiting command's working state is that of a loop that goes on. -/
theorem consistent_iff : w.consistent c = true ↔ InLoop c w ∧ c.finished w = false := by
  rw [Bool.eq_false_iff, ne_eq, finished_iff, not_lt]
  constructor
  · intro h
    simp only [Work.consistent, Bool.and_eq_true, decide_eq_true_eq, beq_iff_eq] at h
    obtain ⟨⟨⟨⟨hpos, hidx⟩, hlen⟩, hflipped⟩, hbsc⟩ := h
    have hdecided : w.decided ≤ w.idx := by unfold Work.decided; split <;> omega
    refine ⟨⟨hpos, hdecided.trans hidx, hlen, hflipped, ?_⟩, hidx⟩
    rintro bits ber rfl
    simpa using hbsc
  · rintro ⟨⟨hpos, -, hlen, hflipped, hbsc⟩, hidx⟩
    simp only [Work.consistent, Bool.and_eq_true, decide_eq_true_eq, beq_iff_eq]
    refine ⟨⟨⟨⟨hpos, hidx⟩, hlen⟩, hflipped⟩, ?_⟩
    cases c with
    | bsc bits ber => simpa using hbsc bits ber rfl
    | ge bits pGB pBG pG pB => rfl

theorem inLoop_start (c : Channel) : InLoop c c.start where
  idx_pos := le_rfl
  decided_le := Nat.zero_le _
  length_cw := length_newVector _
  flipped_eq := rfl
  bsc_state := fun _ _ _ => ⟨rfl, rfl⟩

/-- Deciding the next position adds its decision to the count and leaves the earlier ones (R135). -/
theorem differingUpTo_setAt_succ {out : BitVector} {n : Nat} (hn : n < out.length) (d : Bool) :
    differingUpTo (n + 1) (setAt out (n + 1) (bitAt bits (n + 1) ^^ d)) bits
      = differingUpTo n out bits + d.toNat := by
  have hearlier : differingUpTo n (setAt out (n + 1) (bitAt bits (n + 1) ^^ d)) bits
      = differingUpTo n out bits := by
    refine List.countP_congr fun j hj => ?_
    obtain ⟨hpos, hle⟩ := (mem_positions n j).1 hj
    rw [bitAt_setAt_ne _ (Nat.succ_pos n) hpos (by omega)]
  have hself : bitAt (setAt out (n + 1) (bitAt bits (n + 1) ^^ d)) (n + 1)
      = (bitAt bits (n + 1) ^^ d) := bitAt_setAt_self _ (Nat.succ_pos n) hn
  rw [differingUpTo, positions_succ, List.countP_append, ← differingUpTo, hearlier,
    List.countP_singleton, hself]
  cases d <;> simp

/-- A flip decision keeps the invariant of the positions decided. -/
theorem flipped_applyFlip (hpos : 1 ≤ w.idx) (hle : w.idx ≤ w.cw.length)
    (h : w.flipped = differingUpTo (w.idx - 1) w.cw bits) :
    (applyFlip bits d w).flipped = differingUpTo w.idx (applyFlip bits d w).cw bits := by
  obtain ⟨n, hn⟩ := Nat.exists_eq_add_of_le' hpos
  rw [applyFlip_flipped, applyFlip_cw, h, hn, Nat.add_sub_cancel,
    differingUpTo_setAt_succ (by omega)]

theorem inLoop_onDraw (h : InLoop c w) (hmore : c.finished w = false) (u : Nat) :
    InLoop c (c.onDraw u w) := by
  rw [Bool.eq_false_iff, ne_eq, finished_iff, not_lt] at hmore
  obtain ⟨hpos, hdecided, hlen, hflipped, hbsc⟩ := h
  cases c with
  | bsc bits ber =>
    obtain ⟨hphase, hgood⟩ := hbsc bits ber rfl
    rw [decided_of_flip hphase] at hflipped
    have hnext : ((Channel.bsc bits ber).onDraw u w).decided = w.idx := decided_of_flip hphase
    refine ⟨Nat.le_add_left 1 _, hnext.trans_le hmore, (length_cw_onDraw u w _).trans hlen, ?_,
      fun _ _ _ => ⟨hphase, hgood⟩⟩
    rw [hnext]
    exact flipped_applyFlip hpos (hmore.trans_eq hlen.symm) hflipped
  | ge bits pGB pBG pG pB =>
    cases hphase : w.phase with
    | flip =>
      rw [decided_of_flip hphase] at hflipped
      rw [onDraw_ge_flip _ _ _ _ _ _ _ hphase]
      refine ⟨hpos, hmore, by simpa using hlen, ?_, nofun⟩
      exact flipped_applyFlip hpos (hmore.trans_eq hlen.symm) hflipped
    | transition =>
      rw [decided_of_transition hphase] at hflipped
      rw [onDraw_ge_transition _ _ _ _ _ _ _ hphase]
      exact ⟨Nat.le_add_left 1 _, hmore, hlen, hflipped, nofun⟩

theorem inLoop_pull (h : InLoop c w) (ready : List Nat) : InLoop c (c.pull w ready).1 := by
  induction ready generalizing w with
  | nil => exact h
  | cons u later ih =>
    cases hf : c.finished w with
    | true => rwa [Channel.pull_finished hf]
    | false =>
      rw [Channel.pull_cons hf]
      exact ih (inLoop_onDraw h hf u)

/-- When the loop is over every position is decided. -/
theorem decided_of_finished (h : InLoop c w) (hf : c.finished w = true) :
    w.decided = c.bitsIn.length := by
  rw [finished_iff] at hf
  have hle := h.decided_le
  cases hphase : w.phase with
  | flip => rw [decided_of_flip hphase] at hle ⊢; omega
  | transition => rw [decided_of_transition hphase] at hle; omega

theorem countDifferences_of_length_eq {a b : BitVector} (h : b.length = a.length) :
    countDifferences a b = differingUpTo a.length b a := by
  simp [countDifferences, prefixDifferences, absDiff, differingUpTo, h, bne_comm]

/-- What a loop that is over has built: an output of the word's length, and the count of the
positions at which the two differ (R135). -/
theorem transmitted_of_finished (h : InLoop c w) (hf : c.finished w = true) :
    w.cw.length = c.bitsIn.length ∧ countDifferences c.bitsIn w.cw = w.flipped :=
  ⟨h.length_cw, by
    rw [countDifferences_of_length_eq h.length_cw, h.flipped_eq, decided_of_finished h hf]⟩

/-- With fewer draws than are due a command pulls them all and waits (R196). -/
theorem State.transmit_of_too_few (h : s.rnd.length < drawsDue c w) :
    s.transmit c w = { s with rnd := [], seq := .busy c (c.pull w s.rnd).1 }
      ∧ c.finished (c.pull w s.rnd).1 = false := by
  obtain ⟨-, hover⟩ := Channel.pull_takes_the_draws_due c w s.rnd
  have hmore : c.finished (c.pull w s.rnd).1 = false := by
    rw [Bool.eq_false_iff, ne_eq, hover]; omega
  exact ⟨State.transmit_of_not_finished hmore, hmore⟩

/-- With the draws that are due a command pulls exactly those and answers (R133). -/
theorem State.transmit_of_enough (h : drawsDue c w ≤ s.rnd.length) :
    s.transmit c w
        = { s with rnd := s.rnd.drop (drawsDue c w) }.respond
            (.transmitted (c.pull w s.rnd).1.cw (c.pull w s.rnd).1.flipped)
      ∧ c.finished (c.pull w s.rnd).1 = true := by
  obtain ⟨hrest, hover⟩ := Channel.pull_takes_the_draws_due c w s.rnd
  exact ⟨hrest ▸ State.transmit_of_finished (hover.2 h), hover.2 h⟩

/-- Settles O9: a BUSY step is a transmit, which answers exactly when the due draws are ready. -/
theorem busyBlockAcceptsNoCommand : Obligations.BusyBlockAcceptsNoCommand := by
  intro s c w hrst hseq
  rw [step_of_advance (advance_of_busy hrst hseq)]
  refine ⟨fun hfew => ⟨_, by rw [(State.transmit_of_too_few hfew).1]⟩, fun henough => ?_⟩
  obtain ⟨htransmit, hover⟩ := State.transmit_of_enough henough
  refine ⟨_, _, by rw [htransmit]; rfl, fun hconsistent => ?_⟩
  exact transmitted_of_finished (inLoop_pull (consistent_iff.1 hconsistent).1 _) hover

/-- BSC or GE as an instruction is one channel command, run from the start. -/
theorem exec_of_channel {i : Instr}
    (h : (∃ bits ber, i = .bsc bits ber ∧ c = .bsc bits ber)
      ∨ ∃ bits pGB pBG pG pB, i = .ge bits pGB pBG pG pB ∧ c = .ge bits pGB pBG pG pB) :
    drawsOf i = drawsDue c c.start ∧ ∀ s, exec i s = .next (s.startChannel c) := by
  obtain ⟨bits, ber, rfl, rfl⟩ | ⟨bits, pGB, pBG, pG, pB, rfl, rfl⟩ := h
  · exact ⟨rfl, exec_bsc bits ber⟩
  · exact ⟨rfl, exec_ge bits pGB pBG pG pB⟩

/-- Settles O41: the loop stops short of its end with the invariant of a waiting command. -/
theorem channelStaysBusyWithoutItsDraws : Obligations.ChannelStaysBusyWithoutItsDraws := by
  intro s i c hi hlegal hfew
  obtain ⟨hdraws, hexec⟩ := exec_of_channel hi
  rw [hdraws] at hfew
  obtain ⟨hwait, hmore⟩ := State.transmit_of_too_few hfew
  refine ⟨(c.pull c.start s.rnd).1, ?_, consistent_iff.2 ⟨inLoop_pull (inLoop_start c) _, hmore⟩⟩
  rw [hexec, State.startChannel_of_no_error hlegal, hwait]

/-- A channel command that transmitted has the invariant's output. -/
theorem transmitted_of_startChannel {out : BitVector} {flipped : Nat}
    (h : (s.startChannel c).resp = s.resp ++ [.transmitted out flipped]) :
    out.length = c.bitsIn.length ∧ countDifferences c.bitsIn out = flipped := by
  obtain ⟨status, -, hs⟩ | ⟨-, hs⟩ := s.startChannel_cases c
  · have hbare : Response.bare status = .transmitted out flipped := by simpa [hs] using h
    cases congrArg Response.bitsOut hbare
  · obtain ⟨hover, ht⟩ | ⟨-, ht⟩ := s.transmit_cases c c.start
    · have hsent : Response.transmitted (c.pull c.start s.rnd).1.cw
          (c.pull c.start s.rnd).1.flipped = .transmitted out flipped := by simpa [hs, ht] using h
      have hout := Option.some.inj (congrArg Response.bitsOut hsent)
      have hflipped := Option.some.inj (congrArg Response.flipped hsent)
      rw [← hout, ← hflipped]
      exact transmitted_of_finished (inLoop_pull (inLoop_start c) _) hover
    · simp [hs, ht] at h

/-- Settles O40: both commands answer what their loop has built at its end. -/
theorem flippedCountsTheDifferences : Obligations.FlippedCountsTheDifferences := by
  rintro s t i bits out flipped (⟨ber, rfl⟩ | ⟨pGB, pBG, pG, pB, rfl⟩) hexec hresp
  · obtain rfl := Host.Outcome.next.inj ((exec_bsc bits ber s).symm.trans hexec)
    exact transmitted_of_startChannel hresp
  · obtain rfl := Host.Outcome.next.inj ((exec_ge bits pGB pBG pG pB s).symm.trans hexec)
    exact transmitted_of_startChannel hresp

end Sys2Proof.Machine
end

section
/-! PROOFS. A channel command whose draws come in two lots ends as with all of them ready (spec/20_memory.md R51, spec/70_reset_and_hazards.md R196). -/

namespace Sys2Proof.Machine

variable {c : Channel} {w : Work} {early : List Nat}

/-- Going on from where the early draws ended is pulling early and late draws in one go. What stood
in the sequencer is overwritten either way. -/
theorem State.transmit_late (hmore : c.finished (c.pull w early).1 = false) (s : State)
    (late : List Nat) (seq : Sequencer) :
    { s with rnd := late, seq := seq }.transmit c (c.pull w early).1
      = { s with rnd := early ++ late }.transmit c w := by
  have hpull : c.pull w (early ++ late) = c.pull (c.pull w early).1 late := by
    rw [Channel.pull_append, hmore]; rfl
  unfold State.transmit
  dsimp only
  rw [hpull]
  rfl

/-- Settles O42: a command that is BUSY after State.transmit has pulled its early draws. -/
theorem lateDrawsGiveTheSameOutcome : Obligations.LateDrawsGiveTheSameOutcome := by
  intro s c w waiting early late hbusy
  obtain ⟨-, hanswer⟩ | ⟨hmore, hwait⟩ := { s with rnd := early }.transmit_cases c w
  · rw [hanswer] at hbusy
    cases hbusy
  · rw [hwait] at hbusy ⊢
    cases hbusy
    exact State.transmit_late hmore s late _

/-- Settles O56: both commands are channel commands run from the start. -/
theorem lateDrawsAnswerAsIfReady : Obligations.LateDrawsAnswerAsIfReady := by
  intro s i c early late hi hlegal hfew hrst
  obtain ⟨hdraws, hexec⟩ := exec_of_channel hi
  have hstart : ∀ draws, exec i { s with rnd := draws }
      = .next ({ s with rnd := draws }.transmit c c.start) := fun draws => by
    rw [hexec, State.startChannel_of_no_error (s := { s with rnd := draws }) hlegal]
  rw [hdraws] at hfew ⊢
  obtain ⟨hwait, hmore⟩ := State.transmit_of_too_few (s := { s with rnd := early }) hfew
  refine ⟨(c.pull c.start early).1, _, (hstart early).trans (congrArg _ hwait),
    hstart (early ++ late), ?_, fun henough => ?_⟩
  · rw [← State.transmit_late hmore s late (.busy c (c.pull c.start early).1)]
    exact step_of_advance (advance_of_busy hrst rfl)
  · have hanswer := State.transmit_of_enough (s := { s with rnd := early ++ late }) henough
    exact ⟨_, _, hanswer.1⟩

end Sys2Proof.Machine
end

section
/-! PROOFS. Every response a command gives fits the widths of its fields (spec/00_scope.md R12, spec/30_encoding.md R62). -/

namespace Sys2Proof.Machine

variable {cfg : Config} {n x : Nat}

theorem le_of_overCapacity_eq_false {bound : Nat} (hbound : cfg.nMax = some bound)
    (hfits : overCapacity cfg n = false) : n ≤ bound := by
  by_contra hlt
  have hover := (overCapacity_iff cfg n).2 ⟨bound, hbound, not_le.1 hlt⟩
  rw [hfits] at hover
  cases hover

/-- LEN_W holds every length within capacity (R7). -/
theorem fitsLen_of_le (hfits : overCapacity cfg n = false) (hx : x ≤ n) :
    fitsLen cfg x = true := by
  unfold fitsLen
  split
  · rfl
  · rename_i bound hbound
    have hle := hx.trans (le_of_overCapacity_eq_false hbound hfits)
    exact decide_eq_true (hle.trans_lt (lt_two_pow_bitlen bound))

/-- R_MAX is the number of checks of the longest word (R7). -/
theorem fitsRcnt_of_le (hfits : overCapacity cfg n = false) (hx : x ≤ bitlen n) :
    fitsRcnt cfg x = true := by
  unfold fitsRcnt
  split
  · rfl
  · rename_i bound hbound
    have hle := hx.trans (bitlen_mono (le_of_overCapacity_eq_false hbound hfits))
    exact decide_eq_true (hle.trans_lt (lt_two_pow_bitlen (rMax bound)))

theorem fitsSynv_of_lt (hfits : overCapacity cfg n = false) (hx : x < 2 ^ bitlen n) :
    fitsSynv cfg x = true := by
  unfold fitsSynv
  split
  · rfl
  · rename_i bound hbound
    have hle := bitlen_mono (le_of_overCapacity_eq_false hbound hfits)
    exact decide_eq_true (hx.trans_le (Nat.pow_le_pow_right (by decide) hle))

theorem fits_bare (cfg : Config) (status : Status) : (Response.bare status).fits cfg = true := rfl

theorem fits_params (cfg : Config) (r n : Nat) :
    (Response.params r n).fits cfg = (fitsRcnt cfg r && fitsLen cfg n) := by
  simp [Response.fits, Response.params, Response.bare]

theorem fits_encoded (cfg : Config) (cw : BitVector) :
    (Response.encoded cw).fits cfg = fitsLen cfg cw.length := by
  simp [Response.fits, Response.encoded, Response.bare, fitsBits]

theorem fits_syndrome (cfg : Config) (errpos failed : Nat) :
    (Response.syndrome errpos failed).fits cfg = (fitsSynv cfg errpos && fitsRcnt cfg failed) := by
  simp [Response.fits, Response.syndrome, Response.bare]

theorem fits_decoded (cfg : Config) (data : BitVector) :
    (Response.decoded data).fits cfg = (fitsRcnt cfg 0 && fitsLen cfg data.length) := by
  simp [Response.fits, Response.decoded, Response.bare, fitsBits]

theorem fits_uncorrectable (cfg : Config) (failed : Nat) :
    (Response.uncorrectable failed).fits cfg = fitsRcnt cfg failed := by
  simp [Response.fits, Response.uncorrectable, Response.bare]

theorem fits_transmitted (cfg : Config) (out : BitVector) (flipped : Nat) :
    (Response.transmitted out flipped).fits cfg
      = (fitsLen cfg out.length && fitsLen cfg flipped) := by
  simp [Response.fits, Response.transmitted, Response.bare, fitsBits]

theorem fits_counted (cfg : Config) (count : Nat) :
    (Response.counted count).fits cfg = fitsLen cfg count := by
  simp [Response.fits, Response.counted, Response.bare]

/-- HPARAM's (r, n) within capacity: r is the width of n (R80, R88). -/
theorem fits_params_of_searchR {m : Nat} (hm : 1 ≤ m)
    (hfits : overCapacity cfg (m + searchR m m 1) = false) :
    (Response.params (searchR m m 1) (m + searchR m m 1)).fits cfg = true := by
  obtain ⟨r, hr⟩ := exists_leastParityCount m
  rw [searchR_one_eq_of_leastParityCount hm hr] at hfits ⊢
  rw [fits_params, fitsRcnt_of_le hfits (bitlen_of_leastParityCount hr).ge,
    fitsLen_of_le hfits le_rfl, Bool.and_self]

theorem fits_hparamResponse (cfg : Config) (m : Nat) : (hparamResponse cfg m).fits cfg = true := by
  obtain h | ⟨-, h⟩ | ⟨hm, hfits, h⟩ := hparamWork_cases cfg m
  · rw [hparamResponse_of_error h, fits_bare]
  · rw [hparamResponse_of_error h, fits_bare]
  · rw [hparamResponse, h]
    exact fits_params_of_searchR hm hfits

theorem fits_hencResponse (cfg : Config) (data : BitVector) :
    (hencResponse cfg data).fits cfg = true := by
  obtain h | ⟨-, h⟩ | ⟨-, hfits, h⟩ := hparamWork_cases cfg data.length
  · rw [hencResponse_of_error h, fits_bare]
  · rw [hencResponse_of_error h, fits_bare]
  · rw [hencResponse, hencWork, h]
    dsimp only
    rw [fits_encoded, length_setParities, length_place, fitsLen_of_le hfits le_rfl]

theorem failedChecks_le (v : BitVector) : failedChecks v ≤ bitlen v.length := by
  rw [failedChecks]
  exact List.countP_le_length.trans_eq List.length_range

theorem fits_hsynResponse (cfg : Config) (v : BitVector) :
    (hsynResponse cfg v).fits cfg = true := by
  obtain ⟨hover, -⟩ | ⟨hfits, hlen, -⟩ | ⟨hfits, hlen, -⟩ := syndromeWork_cases cfg v
  · rw [hsynResponse_of_overCapacity hover, fits_bare]
  · rw [hsynResponse_of_invalid_length hfits hlen, fits_bare]
  · have hspells := spellsChecks_errorPosition v
    obtain ⟨hlt, -⟩ := (spellsChecks_iff _ v).1 hspells
    rw [hsynResponse_of_spellsChecks hfits hlen hspells, ← failedChecks_eq_popcount hspells,
      fits_syndrome, fitsSynv_of_lt hfits hlt, fitsRcnt_of_le hfits (failedChecks_le v),
      Bool.and_self]

/-- The data bits of a word within capacity are fewer than its bits (R117). -/
theorem fits_decoded_extract {v : BitVector} (hfits : overCapacity cfg v.length = false) :
    (Response.decoded (extract v)).fits cfg = true := by
  have hlen : (extract v).length ≤ v.length := by
    rw [length_extract, length_dataPositions]
    exact Nat.sub_le _ _
  rw [fits_decoded, fitsRcnt_of_le hfits (Nat.zero_le _), fitsLen_of_le hfits hlen, Bool.and_self]

theorem fits_hdecResponse (cfg : Config) (v : BitVector) :
    (hdecResponse cfg v).fits cfg = true := by
  obtain ⟨hover, -⟩ | ⟨hfits, hlen, -⟩ | ⟨hfits, hlen, -⟩ := syndromeWork_cases cfg v
  · rw [hdecResponse_of_overCapacity hover, fits_bare]
  · rw [hdecResponse_of_invalid_length hfits hlen, fits_bare]
  · rw [hdecResponse_of_spellsChecks hfits hlen (spellsChecks_errorPosition v)]
    split
    · exact fits_decoded_extract hfits
    · split
      · exact fits_decoded_extract (by rwa [length_flipAt])
      · rw [fits_uncorrectable, fitsRcnt_of_le hfits (failedChecks_le v)]

theorem countDifferences_le (a b : BitVector) :
    countDifferences a b ≤ max a.length b.length := by
  have hcount : (List.zipWith xor a b).countP id ≤ min a.length b.length := by
    simpa using List.countP_le_length (p := id) (l := List.zipWith xor a b)
  rw [countDifferences_eq]
  omega

theorem fits_diffResponse (cfg : Config) (a b : BitVector) :
    (diffResponse cfg a b).fits cfg = true := by
  obtain ⟨hover, -⟩ | ⟨ha, hb, h⟩ := diffWork_cases cfg a b
  · rw [diffResponse_of_overCapacity hover, fits_bare]
  · rw [diffResponse, h]
    dsimp only
    have hmax : overCapacity cfg (max a.length b.length) = false := by
      obtain hle | hle := le_total a.length b.length
      · rwa [max_eq_right hle]
      · rwa [max_eq_left hle]
    rw [fits_counted, fitsLen_of_le hmax (countDifferences_le a b)]

/-- What the loop of a channel command within capacity has built at its end. -/
theorem fits_transmitted_of_finished {c : Channel} {w : Work}
    (hfits : overCapacity cfg c.bitsIn.length = false) (h : InLoop c w)
    (hf : c.finished w = true) : (Response.transmitted w.cw w.flipped).fits cfg = true := by
  obtain ⟨hlen, hflipped⟩ := transmitted_of_finished h hf
  have hle := countDifferences_le c.bitsIn w.cw
  rw [hflipped, hlen, max_self] at hle
  rw [fits_transmitted, fitsLen_of_le hfits hlen.le, fitsLen_of_le hfits hle, Bool.and_self]

end Sys2Proof.Machine
end

section
/-! PROOFS. Every step keeps the block sound (spec/00_scope.md R12, spec/10_state.md R21, spec/43_channel_bsc.md R130). -/

namespace Sys2Proof.Machine

variable {s t : State} {c : Channel} {w : Work} {r : Response} {i : Instr}

/-- The invariant's parts by name. -/
structure State.Sound (s : State) : Prop where
  legal : s.config.legal = true
  draws : ∀ u ∈ s.rnd, legalDraw s.config u = true
  inputs : ∀ event ∈ s.inputs, legalInput s.config event = true
  seq : s.seq.sound s.config = true
  resp : ∀ r ∈ s.resp, r.fits s.config = true

theorem State.sound_iff : s.sound = true ↔ s.Sound := by
  simp only [State.sound, Bool.and_eq_true, List.all_eq_true]
  constructor
  · rintro ⟨⟨⟨⟨hlegal, hdraws⟩, hinputs⟩, hseq⟩, hresp⟩
    exact ⟨hlegal, hdraws, hinputs, hseq, hresp⟩
  · rintro ⟨hlegal, hdraws, hinputs, hseq, hresp⟩
    exact ⟨⟨⟨⟨hlegal, hdraws⟩, hinputs⟩, hseq⟩, hresp⟩

theorem Sequencer.sound_busy_iff {cfg : Config} :
    (Sequencer.busy c w).sound cfg = true
      ↔ channelError cfg c = none ∧ InLoop c w ∧ c.finished w = false := by
  simp only [Sequencer.sound, Bool.and_eq_true, beq_iff_eq, consistent_iff]

theorem sound_respond (h : s.Sound) (hr : r.fits s.config = true) : (s.respond r).Sound where
  legal := h.legal
  draws := h.draws
  inputs := h.inputs
  seq := rfl
  resp := by
    intro answer hmem
    obtain hold | hnew := List.mem_append.1 hmem
    · exact h.resp answer hold
    · rwa [List.mem_singleton.1 hnew]

theorem sound_abandon (h : s.Sound) : s.abandon.Sound where
  legal := h.legal
  draws := h.draws
  inputs := h.inputs
  seq := rfl
  resp := h.resp

/-- What waits at the interface is not part of the invariant. -/
theorem sound_with_cmd (h : s.Sound) (waiting : List Offer) :
    ({ s with cmd := waiting } : State).Sound where
  legal := h.legal
  draws := h.draws
  inputs := h.inputs
  seq := h.seq
  resp := h.resp

theorem sound_with_rnd (h : s.Sound) {draws : List Nat}
    (hdraws : ∀ u ∈ draws, legalDraw s.config u = true) :
    ({ s with rnd := draws } : State).Sound where
  legal := h.legal
  draws := hdraws
  inputs := h.inputs
  seq := h.seq
  resp := h.resp

theorem sound_with_seq (h : s.Sound) {seq : Sequencer} (hseq : seq.sound s.config = true) :
    ({ s with seq := seq } : State).Sound where
  legal := h.legal
  draws := h.draws
  inputs := h.inputs
  seq := hseq
  resp := h.resp

/-- An event that the ports can carry keeps the block sound. -/
theorem sound_receive (h : s.Sound) {event : Input}
    (hevent : legalInput s.config event = true) : (s.receive event).Sound := by
  cases event with
  | offer o => exact sound_with_cmd h _
  | draw u =>
    refine sound_with_rnd h fun v hv => ?_
    obtain hold | hnew := List.mem_append.1 hv
    · exact h.draws v hold
    · rwa [List.mem_singleton.1 hnew]
  | rst level => exact ⟨h.legal, h.draws, h.inputs, h.seq, h.resp⟩

theorem sound_arrive (h : s.Sound) : s.arrive.Sound := by
  cases hin : s.inputs with
  | nil => rwa [s.arrive_of_nothing_scheduled hin]
  | cons event later =>
    rw [s.arrive_of_scheduled hin]
    have hinputs := h.inputs
    rw [hin, List.forall_mem_cons] at hinputs
    exact sound_receive (s := { s with inputs := later })
      ⟨h.legal, h.draws, hinputs.2, h.seq, h.resp⟩ hinputs.1

/-- A channel command run on within the loop invariant answers a response that fits, or waits
within the loop invariant. -/
theorem sound_transmit (h : s.Sound) (hchecks : channelError s.config c = none)
    (hw : InLoop c w) : (s.transmit c w).Sound := by
  have hend := inLoop_pull hw s.rnd
  obtain ⟨hfits, -⟩ := (channelError_eq_none_iff _ _).1 hchecks
  obtain ⟨hover, ht⟩ | ⟨hmore, ht⟩ := s.transmit_cases c w
  · rw [ht, (Channel.pull_takes_the_draws_due c w s.rnd).1]
    have hleft := sound_with_rnd h fun u hu =>
      h.draws u (List.mem_of_mem_drop (i := drawsDue c w) hu)
    exact sound_respond hleft (fits_transmitted_of_finished hfits hend hover)
  · rw [ht]
    exact sound_with_seq (sound_with_rnd h (List.forall_mem_nil _))
      (Sequencer.sound_busy_iff.2 ⟨hchecks, hend, hmore⟩)

theorem sound_startChannel (h : s.Sound) (c : Channel) : (s.startChannel c).Sound := by
  cases hchecks : channelError s.config c with
  | some status =>
    rw [State.startChannel_of_error hchecks]
    exact sound_respond h (fits_bare _ status)
  | none =>
    rw [State.startChannel_of_no_error hchecks]
    exact sound_transmit h hchecks (inLoop_start c)

theorem sound_exec (h : s.Sound) (hexec : exec i s = .next t) : t.Sound := by
  have heq {u : State} (hu : exec i s = .next u) : u = t :=
    Host.Outcome.next.inj (hu.symm.trans hexec)
  cases i with
  | hparam m => exact heq (exec_hparam m s) ▸ sound_respond h (fits_hparamResponse _ m)
  | henc data => exact heq (exec_henc data s) ▸ sound_respond h (fits_hencResponse _ data)
  | hsyn v => exact heq (exec_hsyn v s) ▸ sound_respond h (fits_hsynResponse _ v)
  | hdec v => exact heq (exec_hdec v s) ▸ sound_respond h (fits_hdecResponse _ v)
  | bsc bits ber => exact heq (exec_bsc bits ber s) ▸ sound_startChannel h _
  | ge bits pGB pBG pG pB => exact heq (exec_ge bits pGB pBG pG pB s) ▸ sound_startChannel h _
  | diff a b => exact heq (exec_diff a b s) ▸ sound_respond h (fits_diffResponse _ a b)

theorem sound_step (h : s.Sound) (hstep : step s = .next t) : t.Sound := by
  obtain ⟨-, rfl⟩ | ⟨-, c, w, hseq, rfl⟩ | ⟨-, -, -, rfl⟩ | ⟨-, -, o, waiting, -, haccept⟩ :=
    step_cases hstep
  · exact sound_arrive (sound_abandon h)
  · have hbusy := h.seq
    rw [hseq, Sequencer.sound_busy_iff] at hbusy
    obtain ⟨hchecks, hw, -⟩ := hbusy
    exact sound_arrive (sound_transmit h hchecks hw)
  · exact sound_arrive h
  · have hwaiting := sound_with_cmd h waiting
    obtain ⟨-, rfl⟩ | ⟨-, -, rfl⟩ | ⟨i, u, -, hexec, rfl⟩ := haccept
    · exact sound_arrive (sound_respond hwaiting (fits_bare _ _))
    · exact sound_arrive (sound_respond hwaiting (fits_bare _ _))
    · exact sound_arrive (sound_exec hwaiting hexec)

/-- Settles O54: every way a step can go keeps the invariant; a waiting command by its loop
invariant, a response by the lengths within capacity. -/
theorem everyStepKeepsTheBlockSound : Obligations.EveryStepKeepsTheBlockSound :=
  fun _ _ h hstep => State.sound_iff.2 (sound_step (State.sound_iff.1 h) hstep)

end Sys2Proof.Machine
end

section
/-! PROOFS. The valid lengths, the coverage sets and the parity-check matrix (spec/40_hamming_params.md R84 to R89). -/

namespace Sys2Proof.Machine

/-- 2^s - s grows with s. -/
theorem two_pow_add_le_two_pow_add {s k : Nat} (h : s ≤ k) : 2 ^ s + k ≤ 2 ^ k + s := by
  induction k, h using Nat.le_induction with
  | base => exact le_rfl
  | succ k _ ih =>
    have := Nat.two_pow_pos k
    rw [Nat.pow_succ]
    omega

theorem two_pow_le_of_lt_bitlen {n i : Nat} (h : i < bitlen n) : 2 ^ i ≤ n := by
  by_contra hlt
  have := (bitlen_le_iff n i).2 (not_le.1 hlt)
  omega

/-- For a valid n the least r that serves n - bitlen(n) message bits is bitlen(n) (R88). -/
theorem leastParityCount_of_validN {n : Nat} (h : validN n = true) :
    1 ≤ n - bitlen n ∧ bitlen n ≤ n ∧ leastParityCount (n - bitlen n) (bitlen n) = true := by
  obtain ⟨hlow, hpow⟩ := (validN_iff n).1 h
  obtain ⟨k, hk⟩ : ∃ k, bitlen n = k + 1 := by
    refine Nat.exists_eq_add_one.2 (Nat.pos_of_ne_zero fun hzero => ?_)
    have := lt_two_pow_bitlen n
    rw [hzero] at this
    omega
  have htop : 2 ^ k < n := lt_of_le_of_ne (two_pow_le_of_lt_bitlen (by omega)) (hpow k).symm
  have hspare : ∀ s ≤ k, 2 ^ s + k < n + s := fun s hs => by
    have := two_pow_add_le_two_pow_add hs
    omega
  have hzero := hspare 0 (Nat.zero_le k)
  have hfull := lt_two_pow_bitlen n
  refine ⟨by omega, by omega, (leastParityCount_iff _ _).2 ⟨by omega, fun s hs => ?_⟩⟩
  have := hspare s (by omega)
  omega

theorem eq_of_deriveParameters_eq_ok {m : Nat} {par : CodeParams}
    (h : deriveParameters m = .ok par) :
    1 ≤ m ∧ ∃ r, leastParityCount m r = true ∧ par = ⟨m, r, m + r⟩ := by
  obtain ⟨-, herr⟩ | ⟨hm, -⟩ := deriveParameters_cases m
  · rw [herr] at h
    cases h
  · obtain ⟨r, hr⟩ := exists_leastParityCount m
    rw [deriveParameters_of_leastParityCount hm hr] at h
    exact ⟨hm, r, hr, (Except.ok.inj h).symm⟩

/-- Settles O16: bitlen(n) is the least parity count of the message length n - bitlen(n). -/
theorem validLengthsAreTheCodeLengths : Obligations.ValidLengthsAreTheCodeLengths := by
  refine fun n => ⟨⟨fun h => ?_, ?_⟩, ?_⟩
  · obtain ⟨hm, hle, hr⟩ := leastParityCount_of_validN h
    exact ⟨_, _, deriveParameters_of_leastParityCount hm hr, Nat.sub_add_cancel hle⟩
  · rintro ⟨m, par, hpar, rfl⟩
    obtain ⟨hm, r, hr, rfl⟩ := eq_of_deriveParameters_eq_ok hpar
    exact validN_of_leastParityCount hm hr
  · rintro m par hpar rfl
    obtain ⟨-, r, hr, rfl⟩ := eq_of_deriveParameters_eq_ok hpar
    simp [paramsOfLength, bitlen_of_leastParityCount hr]

/-- Settles O17: a position in cov(i) has bit i, and of the powers of two only 2^i has it. -/
theorem coverageSetIsTheSetBits : Obligations.CoverageSetIsTheSetBits :=
  ⟨fun n i j => by rw [mem_cov, and_assoc], fun _ _ _ => eq_of_two_pow_mem_cov⟩

theorem pairwise_lt_dataPositions (n : Nat) : (dataPositions n).Pairwise (· < ·) :=
  List.Pairwise.filter _ (List.pairwise_lt_range' (s := 1) (n := n))

/-- Settles O18: the split holds at every length. -/
theorem positionsSplitIntoParityAndData : Obligations.PositionsSplitIntoParityAndData := by
  refine fun n _ => ⟨parityPositions_eq_map_two_pow n, length_dataPositions n,
    pairwise_lt_dataPositions n, fun j => ?_⟩
  rw [mem_dataPositions, Bool.eq_false_iff, ne_eq, ispow2_iff, not_exists, and_assoc]

/-- check_i read off row i of H (R89, R110). -/
theorem check_eq_xorAll_positions (v : BitVector) (i : Nat) :
    check v i = xorAll ((positions v.length).map fun j => bitOf j i && bitAt v j) := by
  rw [check, cov, xorAll_map_filter]
  simp only [masked_eq_bitOf]

/-- Two different numbers below 2^r differ in one of their r digits. -/
theorem exists_bitOf_ne {j k r : Nat} (hj : j < 2 ^ r) (hk : k < 2 ^ r) (hne : j ≠ k) :
    ∃ i < r, bitOf j i ≠ bitOf k i := by
  obtain ⟨i, hi⟩ := Nat.exists_testBit_ne_of_ne hne
  refine ⟨i, ?_, by rwa [bitOf_eq_testBit, bitOf_eq_testBit]⟩
  by_contra hir
  have hpow : 2 ^ r ≤ 2 ^ i := Nat.pow_le_pow_right (by decide) (not_lt.1 hir)
  exact hi (by
    rw [Nat.testBit_lt_two_pow (hj.trans_le hpow), Nat.testBit_lt_two_pow (hk.trans_le hpow)])

/-- Settles O19: column j of H is the number j in r digits, and the positions are different numbers
that are not 0. -/
theorem checkIsARowOfTheParityCheckMatrix : Obligations.CheckIsARowOfTheParityCheckMatrix := by
  have hfits : ∀ {n j : Nat}, j ≤ n → j < 2 ^ bitlen n := fun hle =>
    hle.trans_lt (lt_two_pow_bitlen _)
  refine ⟨check_eq_xorAll_positions, fun n j _ hpos hn => ?_, fun n j k _ _ hlt hn => ?_⟩
  · obtain ⟨i, hi, hne⟩ := exists_bitOf_ne (hfits hn) (Nat.two_pow_pos _) (by omega : j ≠ 0)
    rw [bitOf_eq_testBit 0, Nat.zero_testBit] at hne
    exact ⟨i, hi, eq_true_of_ne_false hne⟩
  · exact exists_bitOf_ne (hfits (hlt.le.trans hn)) (hfits hn) hlt.ne

end Sys2Proof.Machine
end

section
/-! PROOFS. Codewords form a linear code in which the data bits decide the word (spec/40_hamming_params.md R90, spec/41_hamming_encode.md R105, R106). -/

namespace Sys2Proof.Machine

variable {v w : BitVector}

/-- Settles O21: the CODEWORD of an OK response is a codeword. -/
theorem hencEstablishesTheCodewordInvariant : Obligations.HencEstablishesTheCodewordInvariant := by
  intro s data cw hexec
  obtain ⟨-, hcw, -⟩ := codeword_of_hencResponse (hencResponse_of_exec hexec)
  exact hcw

/-- Two words of one length are equal when they agree at every position. -/
theorem eq_of_bitAt_eq (hlen : v.length = w.length)
    (h : ∀ j, 1 ≤ j → j ≤ v.length → bitAt v j = bitAt w j) : v = w := by
  refine List.ext_getElem hlen fun k hv hw => ?_
  rw [← bitAt_one_add_eq_getElem hv, ← bitAt_one_add_eq_getElem hw]
  exact h (1 + k) (Nat.le_add_right 1 k) (by omega)

theorem bitAt_eq_of_extract_eq (hlen : v.length = w.length) (hdata : extract v = extract w) :
    ∀ j ∈ dataPositions v.length, bitAt v j = bitAt w j := by
  rw [extract, extract, ← hlen] at hdata
  exact List.map_inj_left.1 hdata

/-- Every position that counts for a parity bit is a data position (R87, R102). -/
theorem parityBit_eq_of_extract_eq (hlen : v.length = w.length) (hdata : extract v = extract w)
    (i : Nat) : parityBit v i = parityBit w i := by
  rw [parityBit, parityBit, ← hlen]
  congr 1
  refine List.map_congr_left fun j hj => bitAt_eq_of_extract_eq hlen hdata j ?_
  obtain ⟨hcov, hne⟩ := List.mem_filter.1 hj
  refine (mem_dataPositions _ _).2 ⟨((mem_cov _ _ _).1 hcov).1, ?_⟩
  rw [Bool.eq_false_iff, ne_eq, ispow2_iff]
  rintro ⟨k, rfl⟩
  obtain rfl := eq_of_two_pow_mem_cov hcov
  simp at hne

theorem check_eq_false_of_isCodeword {i : Nat} (h : isCodeword v = true)
    (hi : i < bitlen v.length) : check v i = false := by
  obtain ⟨-, hzero⟩ := (isCodeword_iff v).1 h
  obtain ⟨-, hbits⟩ := (spellsChecks_iff 0 v).1 hzero
  rw [← hbits i hi, bitOf_eq_testBit, Nat.zero_testBit]

/-- The parity bits of a codeword follow from its data bits, since every check is 0 (R90). -/
theorem bitAt_two_pow_of_isCodeword {i : Nat} (h : isCodeword v = true)
    (hn : 2 ^ i ≤ v.length) : bitAt v (2 ^ i) = parityBit v i := by
  have hi : i < bitlen v.length := by
    have := bitlen_mono hn
    rw [bitlen_two_pow] at this
    omega
  have hcheck := check_eq_false_of_isCodeword h hi
  rw [check_eq_bitAt_xor_parityBit hn] at hcheck
  simpa using hcheck

/-- Settles O22: a position is a data position, or a power of two whose bit the data bits decide. -/
theorem codewordIsDeterminedByItsData : Obligations.CodewordIsDeterminedByItsData := by
  intro v w hv hw hlen hdata
  refine eq_of_bitAt_eq hlen fun j hpos hn => ?_
  cases hpow : ispow2 j with
  | false =>
    exact bitAt_eq_of_extract_eq hlen hdata j ((mem_dataPositions _ _).2 ⟨⟨hpos, hn⟩, hpow⟩)
  | true =>
    obtain ⟨i, rfl⟩ := (ispow2_iff j).1 hpow
    rw [bitAt_two_pow_of_isCodeword hv hn, bitAt_two_pow_of_isCodeword hw (hlen ▸ hn),
      parityBit_eq_of_extract_eq hlen hdata]

theorem bitAt_zipWith_xor (hlen : v.length = w.length) (j : Nat) :
    bitAt (List.zipWith xor v w) j = (bitAt v j ^^ bitAt w j) := by
  obtain hj | hj := Nat.lt_or_ge (j - 1) v.length
  · have hw : j - 1 < w.length := hlen ▸ hj
    simp [bitAt, hj, hw]
  · have hw : w.length ≤ j - 1 := hlen ▸ hj
    simp [bitAt, hj, hw]

theorem length_zipWith_xor (hlen : v.length = w.length) :
    (List.zipWith xor v w).length = v.length := by
  rw [List.length_zipWith, ← hlen, min_self]

theorem check_zipWith_xor (hlen : v.length = w.length) (i : Nat) :
    check (List.zipWith xor v w) i = (check v i ^^ check w i) := by
  rw [check, check, check, ← hlen, length_zipWith_xor hlen, ← xorAll_map_xor]
  exact congrArg xorAll (List.map_congr_left fun j _ => bitAt_zipWith_xor hlen j)

theorem isCodeword_zipWith_xor (hv : isCodeword v = true) (hw : isCodeword w = true)
    (hlen : v.length = w.length) : isCodeword (List.zipWith xor v w) = true := by
  rw [isCodeword, length_zipWith_xor hlen, ((isCodeword_iff v).1 hv).1, Bool.true_and,
    List.all_eq_true]
  intro i hi
  have hi := List.mem_range.1 hi
  rw [check_zipWith_xor hlen, check_eq_false_of_isCodeword hv hi,
    check_eq_false_of_isCodeword hw (hlen ▸ hi)]
  rfl

theorem extract_zipWith_xor (hlen : v.length = w.length) :
    extract (List.zipWith xor v w) = List.zipWith xor (extract v) (extract w) := by
  rw [extract, extract, extract, ← hlen, length_zipWith_xor hlen, List.zipWith_map,
    List.zipWith_self]
  exact List.map_congr_left fun j _ => bitAt_zipWith_xor hlen j

/-- The codeword length depends on the message length only. -/
theorem length_of_hencResponse {cfg : Config} {data cw : BitVector}
    (h : hencResponse cfg data = .encoded cw) :
    cw.length = data.length + searchR data.length data.length 1 := by
  obtain ⟨hne, r, hr, -, rfl⟩ := eq_of_hencResponse_eq_encoded h
  rw [length_setParities, length_place,
    searchR_one_eq_of_leastParityCount (List.length_pos_of_ne_nil hne) hr]

/-- Whether HENC answers a codeword depends on the message length only. -/
theorem exists_hencResponse_of_length_eq {cfg : Config} {a c ca : BitVector}
    (h : hencResponse cfg a = .encoded ca) (hlen : c.length = a.length) :
    ∃ cc, hencResponse cfg c = .encoded cc := by
  obtain ⟨hne, r, hr, hfits, -⟩ := eq_of_hencResponse_eq_encoded h
  have hc : c ≠ [] := List.ne_nil_of_length_pos (hlen ▸ List.length_pos_of_ne_nil hne)
  rw [← hlen] at hr hfits
  exact ⟨_, hencResponse_of_leastParityCount hc hr hfits⟩

theorem hencResponse_zipWith_xor {cfg : Config} {a b ca cb : BitVector}
    (hlen : a.length = b.length) (ha : hencResponse cfg a = .encoded ca)
    (hb : hencResponse cfg b = .encoded cb) :
    hencResponse cfg (List.zipWith xor a b) = .encoded (List.zipWith xor ca cb) := by
  have hab := length_zipWith_xor hlen
  obtain ⟨cab, hcab⟩ := exists_hencResponse_of_length_eq ha hab
  have hclen : ca.length = cb.length := by
    rw [length_of_hencResponse ha, length_of_hencResponse hb, hlen]
  have hcablen : cab.length = (List.zipWith xor ca cb).length := by
    rw [length_of_hencResponse hcab, length_zipWith_xor hclen, length_of_hencResponse ha, hab]
  obtain ⟨-, hcwA, rfl⟩ := codeword_of_hencResponse ha
  obtain ⟨-, hcwB, rfl⟩ := codeword_of_hencResponse hb
  obtain ⟨-, hcwAB, hdata⟩ := codeword_of_hencResponse hcab
  rw [hcab, codewordIsDeterminedByItsData _ _ hcwAB (isCodeword_zipWith_xor hcwA hcwB hclen)
    hcablen (hdata.trans (extract_zipWith_xor hclen).symm)]

/-- Settles O23: the xor of the two codewords is a codeword that holds the xor of the messages. -/
theorem encodingIsLinear : Obligations.EncodingIsLinear := by
  intro s a b ca cb hlen ha hb
  rw [exec_henc,
    hencResponse_zipWith_xor hlen (hencResponse_of_exec ha) (hencResponse_of_exec hb)]
  rfl

end Sys2Proof.Machine
end

section
/-! PROOFS. What the error position says about a received word (spec/42_hamming_syndrome_decode.md R115, R116, R119 to R121). -/

namespace Sys2Proof.Machine

variable {v : BitVector} {e : Nat}

/-- The bitwise xor of a list of numbers. -/
def xorNumbers (l : List Nat) : Nat :=
  l.foldr (fun j acc => j ^^^ acc) 0

theorem bitOf_xorNumbers (l : List Nat) (i : Nat) :
    bitOf (xorNumbers l) i = xorAll (l.map (bitOf · i)) := by
  induction l with
  | nil => rw [bitOf_eq_testBit]; exact Nat.zero_testBit i
  | cons j l ih =>
    rw [List.map_cons, xorAll_cons, ← ih, bitOf_eq_testBit, bitOf_eq_testBit, bitOf_eq_testBit]
    exact Nat.testBit_xor j (xorNumbers l) i

theorem xorNumbers_lt_two_pow {l : List Nat} {r : Nat} (h : ∀ j ∈ l, j < 2 ^ r) :
    xorNumbers l < 2 ^ r := by
  induction l with
  | nil => exact Nat.two_pow_pos r
  | cons j l ih =>
    obtain ⟨hj, hl⟩ := List.forall_mem_cons.1 h
    exact Nat.xor_lt_two_pow hj (ih hl)

/-- Bit i of the xor of the positions that hold a 1 is check_i (R120). -/
theorem spellsChecks_xorNumbers (v : BitVector) :
    spellsChecks (xorNumbers ((positions v.length).filter (bitAt v))) v = true := by
  refine (spellsChecks_iff _ v).2 ⟨xorNumbers_lt_two_pow fun j hj => ?_, fun i _ => ?_⟩
  · obtain ⟨-, hn⟩ := (mem_positions _ _).1 (List.mem_filter.1 hj).1
    exact hn.trans_lt (lt_two_pow_bitlen _)
  · rw [bitOf_xorNumbers, xorAll_map_filter, check_eq_xorAll_positions]
    simp only [Bool.and_comm]

/-- Settles O25: both numbers have the checks as their digits. -/
theorem errorPositionIsTheXorOfSetPositions : Obligations.ErrorPositionIsTheXorOfSetPositions :=
  fun v => errorPosition_eq_of_spellsChecks (spellsChecks_xorNumbers v)

/-- Settles O27: flipping position e xors e to the number the checks spell, which is e. -/
theorem correctionGivesACodeword : Obligations.CorrectionGivesACodeword := by
  intro v e hlen he hpos hn
  refine (isCodeword_iff _).2 ⟨by rwa [length_flipAt], ?_⟩
  simpa using spellsChecks_flipAt he hpos hn

/-- Settles O30: from 0 the two flips give the xor of two positions that differ and are not 0. -/
theorem twoErrorsPointElsewhere : Obligations.TwoErrorsPointElsewhere := by
  intro v first second hcw hpos hlt hn
  have hfirst := spellsChecks_flipAt_of_isCodeword hcw hpos (hlt.le.trans hn)
  refine ⟨spellsChecks_flipAt hfirst (hpos.trans hlt.le) (by rwa [length_flipAt]), ?_, ?_, ?_⟩
  · exact fun h => hlt.ne (Nat.xor_eq_zero_iff.1 h)
  · intro h
    have hsecond : second = 0 := by simpa using congrArg (first ^^^ ·) h
    omega
  · intro h
    have hzero : first = 0 := by simpa using congrArg (· ^^^ second) h
    omega

theorem errorPosition_of_countP_eq_zero {syn : List Bool} (h : syn.countP id = 0) :
    errorPosition syn = 0 := by
  induction syn with
  | nil => rfl
  | cons b syn ih =>
    cases b with
    | false => simp [errorPosition, ih (by simpa using h)]
    | true => simp at h

/-- A number with at most one 1 among its digits is 0 or the weight of a digit. -/
theorem errorPosition_of_countP_le_one {syn : List Bool} (h : syn.countP id ≤ 1) :
    errorPosition syn = 0 ∨ ∃ i < syn.length, errorPosition syn = 2 ^ i := by
  induction syn with
  | nil => exact .inl rfl
  | cons b syn ih =>
    rw [errorPosition]
    cases b with
    | false =>
      obtain hzero | ⟨i, hi, hpow⟩ := ih (by simpa using h)
      · exact .inl (by simp [hzero])
      · exact .inr ⟨i + 1, Nat.succ_lt_succ hi, by simp [hpow, Nat.pow_succ']⟩
    | true =>
      have hrest := errorPosition_of_countP_eq_zero (syn := syn) (by simpa using h)
      exact .inr ⟨0, Nat.succ_pos _, by simp [hrest]⟩

/-- An error position beyond the word is no parity position of it, so it is no power of two below
2^r, and at least two checks fail (R116). -/
theorem two_le_failedChecks (he : spellsChecks e v = true) (hn : v.length < e) :
    2 ≤ failedChecks v := by
  by_contra hfew
  have hcount : (syndrome v (bitlen v.length)).countP id ≤ 1 := by
    rw [← popcount_errorPosition, popcount_errorPosition_syndrome]
    omega
  obtain hzero | ⟨i, hi, hpow⟩ := errorPosition_of_countP_le_one hcount
  · rw [errorPosition_eq_of_spellsChecks he] at hzero
    omega
  · rw [errorPosition_eq_of_spellsChecks he] at hpow
    have := two_pow_le_of_lt_bitlen ((length_syndrome v _).symm ▸ hi)
    omega

/-- HDEC gives up only on a word whose error position lies beyond it. -/
theorem of_hdecResponse_eq_uncorrectable {cfg : Config} {failed : Nat}
    (h : hdecResponse cfg v = .uncorrectable failed) : 2 ≤ failed ∧ failed = failedChecks v := by
  obtain ⟨hover, -⟩ | ⟨hfits, hlen, -⟩ | ⟨hfits, hlen, -⟩ := syndromeWork_cases cfg v
  · rw [hdecResponse_of_overCapacity hover] at h
    cases congrArg Response.status h
  · rw [hdecResponse_of_invalid_length hfits hlen] at h
    cases congrArg Response.status h
  · have hspells := spellsChecks_errorPosition v
    rw [hdecResponse_of_spellsChecks hfits hlen hspells] at h
    split at h
    · cases congrArg Response.status h
    · split at h
      · cases congrArg Response.status h
      · obtain rfl := Option.some.inj (congrArg Response.failed h)
        exact ⟨two_le_failedChecks hspells (by omega), rfl⟩

theorem hdecResponse_of_exec {s : State} {r : Response}
    (h : exec (.hdec v) s = .next { s with seq := .idle, resp := s.resp ++ [r] }) :
    hdecResponse s.config v = r := by
  have hresp := congrArg State.resp (Host.Outcome.next.inj ((exec_hdec v s).symm.trans h))
  simpa using hresp

/-- Settles O28: the failed checks of a word that HDEC gives up on are at least two. -/
theorem uncorrectableHasTwoFailedChecks : Obligations.UncorrectableHasTwoFailedChecks :=
  fun _ _ _ hexec => of_hdecResponse_eq_uncorrectable (hdecResponse_of_exec hexec)

/-- Full lengths are valid lengths (R121). -/
theorem validN_two_pow_sub_one {r : Nat} (hr : 2 ≤ r) : validN (2 ^ r - 1) = true := by
  have hfour : 2 ^ 2 ≤ 2 ^ r := Nat.pow_le_pow_right (by decide) hr
  refine (validN_iff _).2 ⟨by omega, fun k hk => ?_⟩
  have hwidth := congrArg bitlen hk
  rw [bitlen_two_pow_sub_one, bitlen_two_pow] at hwidth
  have htwo : 2 ^ 1 ≤ 2 ^ k := Nat.pow_le_pow_right (by decide) (by omega)
  rw [hwidth, Nat.pow_succ] at hk
  omega

/-- Settles O31: every number below 2^r is 0 or a position of a word of length 2^r - 1. -/
theorem fullLengthWordsAlwaysDecode : Obligations.FullLengthWordsAlwaysDecode := by
  intro s v r hr hlen hfits
  have hspells := spellsChecks_errorPosition v
  obtain ⟨hlt, -⟩ := (spellsChecks_iff _ v).1 hspells
  have hfull : 2 ^ bitlen v.length = v.length + 1 := by
    rw [hlen, bitlen_two_pow_sub_one, Nat.sub_add_cancel (Nat.two_pow_pos r)]
  rw [exec_hdec,
    hdecResponse_of_spellsChecks hfits (hlen ▸ validN_two_pow_sub_one hr) hspells]
  split
  · exact ⟨_, rfl⟩
  · rw [if_pos (by omega)]
    exact ⟨_, rfl⟩

end Sys2Proof.Machine
end

section
/-! PROOFS. Channels whose decisions do not depend on the draws, or on half of them (spec/43_channel_bsc.md R137, spec/44_channel_ge.md R151, R152, R155). -/

namespace Sys2Proof.Machine

variable {s : State} {bits : BitVector} {draws later : List Nat} {pairs : List (Nat × Nat)}
  {pGB pBG pG pB p : Nat}

theorem zipWith_xor_replicate (bits : BitVector) (d : Bool) :
    List.zipWith xor bits (List.replicate bits.length d) = bits.map (· ^^ d) := by
  induction bits with
  | nil => rfl
  | cons b bits ih => simpa [List.replicate_succ] using ih

/-- BSC's decisions as a list. -/
theorem zipWith_decide_lt (bits : BitVector) (draws : List Nat) (ber : Nat) :
    List.zipWith (fun b u => b ^^ decide (u < ber)) bits draws
      = List.zipWith xor bits (draws.map fun u => decide (u < ber)) := by
  rw [List.zipWith_map_right]

/-- BSC whose draws all decide `d` inverts every bit by `d` (R137). -/
theorem startChannel_bsc_of_constant {ber : Nat} {d : Bool}
    (hfits : overCapacity s.config bits.length = false) (hber : ber ≤ 2 ^ s.config.probW)
    (hrnd : s.rnd = draws ++ later) (hdraws : draws.length = bits.length)
    (hd : ∀ u ∈ draws, decide (u < ber) = d) :
    s.startChannel (.bsc bits ber)
      = { s with rnd := later }.respond
          (.transmitted (bits.map (· ^^ d)) ((List.replicate bits.length d).countP id)) := by
  have hdecisions : draws.map (fun u => decide (u < ber)) = List.replicate bits.length d := by
    rw [List.map_congr_left hd, List.map_const', hdraws]
  have hcount : draws.countP (fun u => decide (u < ber))
      = (draws.map fun u => decide (u < ber)).countP id := by
    rw [List.countP_map]; rfl
  rw [startChannel_bsc hfits hber hrnd hdraws, zipWith_decide_lt, hcount, hdecisions,
    zipWith_xor_replicate]

/-- Settles O33: no draw is below 0, and every draw of PROB_W bits is below 2^PROB_W. -/
theorem bscAtTheTwoEnds : Obligations.BscAtTheTwoEnds := by
  refine fun s bits draws later hfits hrnd hdraws hwidth => ⟨?_, ?_⟩
  · have hd : ∀ u ∈ draws, decide (u < 0) = false := fun u _ => decide_eq_false (Nat.not_lt_zero u)
    rw [exec_bsc, startChannel_bsc_of_constant hfits (Nat.zero_le _) hrnd hdraws hd]
    simp [State.respond, List.countP_replicate]
  · have hd : ∀ u ∈ draws, decide (u < 2 ^ s.config.probW) = true := fun u hu =>
      decide_eq_true (hwidth u hu)
    rw [exec_bsc, startChannel_bsc_of_constant hfits le_rfl hrnd hdraws hd]
    simp [State.respond, List.countP_replicate]

/-- With P_GB = 0 GE stays in Good, where the flip draws are held against P_G (R151). -/
theorem geDecisions_of_no_transition (pBG pG pB : Nat) (pairs : List (Nat × Nat)) :
    geDecisions 0 pBG pG pB .good pairs = pairs.map fun pair => decide (pair.1 < pG) := by
  induction pairs with
  | nil => rfl
  | cons pair pairs ih =>
    rw [geDecisions_cons, stepState_good, if_neg (Nat.not_lt_zero _), ih]
    rfl

theorem legal_ge_probs (hpGB : pGB ≤ p) (hpBG : pBG ≤ p) (hpG : pG ≤ p) (hpB : pB ≤ p) :
    ∀ q ∈ (Channel.ge bits pGB pBG pG pB).probs, q ≤ p := by
  simp [Channel.probs, hpGB, hpBG, hpG, hpB]

/-- Settles O37: GE's decisions are those of BSC on the flip draws. -/
theorem geWithoutTransitionsIsABsc : Obligations.GeWithoutTransitionsIsABsc := by
  rintro s _ bits pBG pG pB pairs later hfits hpBG hpG hpB hrnd hpairs rfl
  have hge := startChannel_ge hfits (legal_ge_probs (Nat.zero_le _) hpBG hpG hpB) hrnd hpairs
  have hbsc := startChannel_bsc (s := { s with rnd := pairs.map Prod.fst }) (later := []) hfits hpG
    (List.append_nil _).symm ((List.length_map _).trans hpairs)
  have hdecisions : geDecisions 0 pBG pG pB .good pairs
      = (pairs.map Prod.fst).map fun u => decide (u < pG) := by
    rw [geDecisions_of_no_transition, List.map_map]
    rfl
  have hcount : (geDecisions 0 pBG pG pB .good pairs).countP id
      = (pairs.map Prod.fst).countP fun u => decide (u < pG) := by
    rw [hdecisions, List.countP_map]
    rfl
  rw [hcount, hdecisions, ← zipWith_decide_lt] at hge
  exact ⟨_, by rw [exec_ge, hge]; rfl, by rw [exec_bsc, hbsc]; rfl⟩

/-- With P_G = P_B = 0 no decision flips, in either state (R152). -/
theorem geDecisions_of_no_flip (pGB pBG : Nat) (st : ChannelState) (pairs : List (Nat × Nat)) :
    geDecisions pGB pBG 0 0 st pairs = List.replicate pairs.length false := by
  induction pairs generalizing st with
  | nil => rw [geDecisions]; rfl
  | cons pair pairs ih =>
    have hzero : flipProb 0 0 st = 0 := by cases st <;> rfl
    rw [geDecisions_cons, hzero, bern_zero, ih, List.length_cons, List.replicate_succ]

/-- Any 2n draws are n pairs in the order they are pulled (R150). -/
theorem exists_pullOrder_eq {n : Nat} (h : draws.length = 2 * n) :
    ∃ pairs, pullOrder pairs = draws ∧ pairs.length = n := by
  induction n generalizing draws with
  | zero => exact ⟨[], (List.length_eq_zero_iff.1 h).symm, rfl⟩
  | succ n ih =>
    obtain ⟨flipDraw, _, rfl⟩ := List.exists_cons_of_length_eq_add_one h
    obtain ⟨transitionDraw, rest, rfl⟩ :=
      List.exists_cons_of_length_eq_add_one (Nat.succ_injective h)
    obtain ⟨pairs, rfl, rfl⟩ := ih (draws := rest) (by simpa [Nat.mul_succ] using h)
    exact ⟨(flipDraw, transitionDraw) :: pairs, rfl, rfl⟩

/-- Settles O38: no decision flips, and the 2n draws are the n pairs of GE's rule. -/
theorem geWithoutFlipsPassesTheWord : Obligations.GeWithoutFlipsPassesTheWord := by
  intro s bits pGB pBG draws later hfits hpGB hpBG hrnd hdraws
  obtain ⟨pairs, rfl, hpairs⟩ := exists_pullOrder_eq hdraws
  rw [exec_ge, startChannel_ge hfits
      (legal_ge_probs hpGB hpBG (Nat.zero_le _) (Nat.zero_le _)) hrnd hpairs,
    geDecisions_of_no_flip, hpairs, zipWith_xor_replicate]
  simp [State.respond, List.countP_replicate]

/-- A transition draw of PROB_W bits is below 2^PROB_W, so it changes the state (R155). -/
theorem stepState_of_certain {st : ChannelState} {u : Nat} (hu : u < p) :
    stepState p p st u = st.other := by
  have hleave : leaveProb p p st = p := by cases st <;> rfl
  have hbern : bern p u = true := decide_eq_true hu
  rw [stepState, hleave, if_pos hbern]

/-- With certain transitions the state is the other one at each next position (R155). -/
theorem getElem_geDecisions_of_certain (hcertain : ∀ pair ∈ pairs, pair.2 < p)
    (st : ChannelState) {k : Nat} (hk : k < pairs.length)
    (hk' : k < (geDecisions p p pG pB st pairs).length) :
    (geDecisions p p pG pB st pairs)[k]
      = decide (pairs[k].1 < flipProb pG pB (ChannelState.other^[k] st)) := by
  induction pairs generalizing st k with
  | nil => exact absurd hk (Nat.not_lt_zero k)
  | cons pair pairs ih =>
    obtain ⟨hpair, hrest⟩ := List.forall_mem_cons.1 hcertain
    simp only [geDecisions_cons, stepState_of_certain hpair] at hk' ⊢
    cases k with
    | zero => rfl
    | succ k => exact ih hrest st.other _ _

theorem involutive_other : Function.Involutive ChannelState.other := by
  intro st
  cases st <;> rfl

/-- Position k + 1 finds Good when it is odd and Bad when it is even. -/
theorem flipProb_iterate_other (pG pB k : Nat) :
    flipProb pG pB (ChannelState.other^[k] .good) = if (1 + k) % 2 = 1 then pG else pB := by
  obtain heven | hodd := Nat.even_or_odd k
  · rw [involutive_other.iterate_even heven, if_pos (by rw [Nat.even_iff] at heven; omega)]
    rfl
  · rw [involutive_other.iterate_odd hodd, if_neg (by rw [Nat.odd_iff] at hodd; omega)]
    rfl

/-- The decisions of GE with certain transitions, position by position (R155). -/
theorem geDecisions_of_certain (hcertain : ∀ pair ∈ pairs, pair.2 < p) (pG pB : Nat) :
    geDecisions p p pG pB .good pairs
      = (positions pairs.length).map fun j =>
          decide ((pairs.getD (j - 1) (0, 0)).1 < if j % 2 = 1 then pG else pB) := by
  refine List.ext_getElem (by simp [length_geDecisions]) fun k hk _ => ?_
  have hkp : k < pairs.length := by rwa [length_geDecisions] at hk
  rw [getElem_geDecisions_of_certain hcertain .good hkp hk, flipProb_iterate_other]
  simp [positions, hkp]

theorem map_bitAt_positions (v : BitVector) : (positions v.length).map (bitAt v) = v :=
  List.ext_getElem (by simp) fun k _ hk => by simp [positions, bitAt_one_add_eq_getElem hk]

theorem zipWith_xor_map_positions (v : BitVector) (f : Nat → Bool) :
    List.zipWith xor v ((positions v.length).map f)
      = (positions v.length).map fun j => bitAt v j ^^ f j :=
  calc List.zipWith xor v ((positions v.length).map f)
      = List.zipWith xor ((positions v.length).map (bitAt v)) ((positions v.length).map f) := by
        rw [map_bitAt_positions]
    _ = (positions v.length).map fun j => bitAt v j ^^ f j := by
        rw [List.zipWith_map, List.zipWith_self]

theorem countP_even_positions (n : Nat) :
    (positions n).countP (fun j => j % 2 == 0) = n / 2 := by
  induction n with
  | zero => rfl
  | succ n ih =>
    rw [positions_succ, List.countP_append, ih, List.countP_singleton]
    simp only [beq_iff_eq]
    split <;> omega

/-- At P_G = 0 and P_B = 1 the flip draws of PROB_W bits decide nothing: exactly the even positions
are inverted (R155). -/
theorem decide_lt_alternating {j : Nat} (hflip : ∀ pair ∈ pairs, pair.1 < p)
    (hj : j ∈ positions pairs.length) :
    decide ((pairs.getD (j - 1) (0, 0)).1 < if j % 2 = 1 then 0 else p) = (j % 2 == 0) := by
  obtain ⟨hpos, hn⟩ := (mem_positions _ _).1 hj
  have hlt : j - 1 < pairs.length := by omega
  rw [List.getD_eq_getElem _ _ hlt]
  have hdraw := hflip _ (List.getElem_mem hlt)
  split <;> simp_all

/-- Settles O39: the decisions of certain transitions, and at the two ends their parity. -/
theorem geWithCertainTransitionsAlternates : Obligations.GeWithCertainTransitionsAlternates := by
  intro s bits pG pB pairs later hfits hpG hpB hrnd hpairs hcertain
  have hge := startChannel_ge hfits (legal_ge_probs le_rfl le_rfl hpG hpB) hrnd hpairs
  rw [geDecisions_of_certain hcertain, hpairs] at hge
  refine ⟨?_, ?_⟩
  · rintro flips rfl
    rw [exec_ge, hge]
    rfl
  · rintro rfl rfl hflip
    have hparity := List.map_congr_left fun j hj => decide_lt_alternating hflip hj
    rw [hpairs] at hparity
    rw [hparity, List.countP_map, Function.id_comp, countP_even_positions] at hge
    rw [exec_ge, hge, zipWith_xor_map_positions]
    rfl

end Sys2Proof.Machine
end

section
/-! PROOFS. The laws of the difference count (spec/45_difference_counter.md R162). -/

namespace Sys2Proof.Machine

theorem countDifferences_self (a : BitVector) : countDifferences a a = 0 := by
  simp [countDifferences_of_length_eq, differingUpTo]

theorem countDifferences_comm (a b : BitVector) :
    countDifferences a b = countDifferences b a := by
  rw [countDifferences_eq, countDifferences_eq, List.zipWith_comm_of_comm Bool.xor_comm,
    max_comm, min_comm]

theorem countDifferences_nil_left (b : BitVector) : countDifferences [] b = b.length := by
  simp [countDifferences_eq]

/-- A count of 0 leaves no difference in length and none at a position. -/
theorem eq_of_countDifferences_eq_zero {a b : BitVector} (h : countDifferences a b = 0) :
    a = b := by
  have hlen : b.length = a.length := by
    rw [countDifferences_eq] at h
    omega
  rw [countDifferences_of_length_eq hlen, differingUpTo, List.countP_eq_zero] at h
  refine (eq_of_bitAt_eq hlen fun j hpos hn => ?_).symm
  simpa using h j ((mem_positions _ _).2 ⟨hpos, hn.trans_eq hlen⟩)

/-- Settles O44: the laws one by one. -/
theorem differenceCountLaws : Obligations.DifferenceCountLaws :=
  fun a b => ⟨countDifferences_self a, countDifferences_comm a b, countDifferences_le a b,
    countDifferences_nil_left b, eq_of_countDifferences_eq_zero⟩

end Sys2Proof.Machine
end

section
/-! PROOFS. What every command leaves unchanged, and which statuses it can give (spec/60_exceptions.md R177, R180). -/

namespace Sys2Proof.Machine

variable {s t : State} {c : Channel} {w : Work} {n : Nat} {r : Response} {i : Instr}

/-- From `s` to `t` a command that needs `n` draws has answered, or has pulled all draws and waits;
only the sequencer, RND and RESP have changed. -/
def FramedFrom (n : Nat) (s t : State) : Prop :=
  t.config = s.config ∧ t.cmd = s.cmd ∧ t.rst = s.rst ∧ t.inputs = s.inputs
    ∧ (∃ pulled, s.rnd = pulled ++ t.rnd)
    ∧ ((t.seq = .idle ∧ ∃ r, t.resp = s.resp ++ [r])
      ∨ (t.resp = s.resp ∧ t.rnd = [] ∧ ∃ c w, t.seq = .busy c w))
    ∧ (n = 0 → t.rnd = s.rnd ∧ t.seq = .idle)

theorem framedFrom_respond (n : Nat) (s : State) (r : Response) : FramedFrom n s (s.respond r) :=
  ⟨rfl, rfl, rfl, rfl, ⟨[], rfl⟩, .inl ⟨rfl, r, rfl⟩, fun _ => ⟨rfl, rfl⟩⟩

/-- A command that is due no draw has all it needs. -/
theorem framedFrom_transmit (s : State) (c : Channel) (w : Work) :
    FramedFrom (drawsDue c w) s (s.transmit c w) := by
  obtain hfew | henough := Nat.lt_or_ge s.rnd.length (drawsDue c w)
  · rw [(State.transmit_of_too_few hfew).1]
    exact ⟨rfl, rfl, rfl, rfl, ⟨s.rnd, (List.append_nil _).symm⟩, .inr ⟨rfl, rfl, c, _, rfl⟩,
      fun hzero => by omega⟩
  · rw [(State.transmit_of_enough henough).1]
    exact ⟨rfl, rfl, rfl, rfl, ⟨s.rnd.take (drawsDue c w), (List.take_append_drop _ _).symm⟩,
      .inl ⟨rfl, _, rfl⟩, fun hzero => ⟨by rw [hzero]; rfl, rfl⟩⟩

theorem framedFrom_startChannel (s : State) (c : Channel) :
    FramedFrom (drawsDue c c.start) s (s.startChannel c) := by
  obtain ⟨status, -, hs⟩ | ⟨-, hs⟩ := s.startChannel_cases c
  · rw [hs]
    exact framedFrom_respond _ s _
  · rw [hs]
    exact framedFrom_transmit s c c.start

/-- Settles O45: a command gives its response at once or is a channel command run from the start. -/
theorem everyCommandAnswersAndItsFrame : Obligations.EveryCommandAnswersAndItsFrame := by
  intro i s
  obtain ⟨-, hexec⟩ | ⟨c, hdraws, hexec⟩ := exec_cases_drawsOf i
  · obtain ⟨answer, hs⟩ := hexec s
    exact ⟨_, hs, framedFrom_respond (drawsOf i) s answer⟩
  · have hframe := framedFrom_startChannel s c
    rw [← hdraws] at hframe
    exact ⟨_, hexec s, hframe⟩

/-- A command that has answered gave its response at once, or transmitted. -/
theorem exec_eq_respond_or_transmitted (hexec : exec i s = .next t)
    (hresp : t.resp = s.resp ++ [r]) :
    t = s.respond r ∨ ∃ out flipped, r = .transmitted out flipped := by
  obtain ⟨answer, hs⟩ | ⟨c, hs⟩ := exec_cases i
  · obtain rfl := Host.Outcome.next.inj ((hs s).symm.trans hexec)
    obtain rfl : answer s.config = r := by simpa using hresp
    exact .inl rfl
  · obtain rfl := Host.Outcome.next.inj ((hs s).symm.trans hexec)
    cases herr : channelError s.config c with
    | some status =>
      rw [State.startChannel_of_error herr] at hresp ⊢
      obtain rfl : Response.bare status = r := by simpa using hresp
      exact .inl rfl
    | none =>
      rw [State.startChannel_of_no_error herr] at hresp
      obtain ⟨-, ht⟩ | ⟨-, ht⟩ := s.transmit_cases c c.start
      · exact .inr ⟨_, _, by simpa [ht] using hresp.symm⟩
      · simp [ht] at hresp

/-- Settles O47: what is transmitted is transmitted with OK. -/
theorem anErrorStatusHasNoOtherEffect : Obligations.AnErrorStatusHasNoOtherEffect := by
  intro i s t r hexec hresp hstatus
  obtain rfl | ⟨out, flipped, rfl⟩ := exec_eq_respond_or_transmitted hexec hresp
  · rfl
  · exact absurd rfl hstatus

theorem Answers.status_mem_possibleStatuses {cfg : Config} (h : Answers cfg i r) :
    r.status ∈ possibleStatuses i := by
  cases h with
  | capacityExceeded => cases i <;> exact List.elem_iff.1 rfl
  | _ => exact List.elem_iff.1 rfl

/-- Settles O49: the responses a command can give have the statuses of its row. -/
theorem eachCommandGivesOnlyItsStatuses : Obligations.EachCommandGivesOnlyItsStatuses :=
  fun _ _ _ _ hexec hresp => (exec_answers hexec hresp).status_mem_possibleStatuses

end Sys2Proof.Machine
end

section
/-! PROOFS. A finite N_MAX only adds CapacityExceeded (spec/92_eei_decisions.md D3). -/

namespace Sys2Proof.Machine

variable {s t s' t' : State} {cfg : Config}

/-- The same build with N_MAX unbounded. -/
def unbounded (cfg : Config) : Config :=
  { cfg with nMax := none }

theorem overCapacity_unbounded_config (cfg : Config) (n : Nat) :
    overCapacity (unbounded cfg) n = false := rfl

theorem hparamWork_capacityExceeded_or_unbounded (cfg : Config) (m : Nat) :
    hparamWork cfg m = .error .capacityExceeded
      ∨ hparamWork cfg m = hparamWork (unbounded cfg) m := by
  obtain rfl | hm := Nat.eq_zero_or_pos m
  · exact .inr (by rw [hparamWork_zero, hparamWork_zero])
  · obtain ⟨r, hr⟩ := exists_leastParityCount m
    cases hover : overCapacity cfg (m + r) with
    | true => exact .inl (hparamWork_of_result_overCapacity hm hr hover)
    | false =>
      exact .inr (by
        rw [hparamWork_of_leastParityCount hm hr hover,
          hparamWork_of_leastParityCount hm hr (overCapacity_unbounded_config cfg _)])

theorem hparamResponse_capacityExceeded_or_unbounded (cfg : Config) (m : Nat) :
    hparamResponse cfg m = .bare .capacityExceeded
      ∨ hparamResponse cfg m = hparamResponse (unbounded cfg) m := by
  obtain h | h := hparamWork_capacityExceeded_or_unbounded cfg m
  · exact .inl (hparamResponse_of_error h)
  · exact .inr (by rw [hparamResponse, hparamResponse, h])

theorem hencResponse_capacityExceeded_or_unbounded (cfg : Config) (data : BitVector) :
    hencResponse cfg data = .bare .capacityExceeded
      ∨ hencResponse cfg data = hencResponse (unbounded cfg) data := by
  obtain h | h := hparamWork_capacityExceeded_or_unbounded cfg data.length
  · exact .inl (hencResponse_of_error h)
  · exact .inr (by rw [hencResponse, hencResponse, hencWork, hencWork, h])

/-- Within capacity steps 1 to 3 of decoding do not look at N_MAX. -/
theorem syndromeWork_unbounded {v : BitVector} (hfits : overCapacity cfg v.length = false) :
    syndromeWork cfg v = syndromeWork (unbounded cfg) v := by
  simp [syndromeWork, hfits, overCapacity_unbounded_config]

theorem hsynResponse_capacityExceeded_or_unbounded (cfg : Config) (v : BitVector) :
    hsynResponse cfg v = .bare .capacityExceeded
      ∨ hsynResponse cfg v = hsynResponse (unbounded cfg) v := by
  cases h : overCapacity cfg v.length with
  | true => exact .inl (hsynResponse_of_overCapacity h)
  | false => exact .inr (by rw [hsynResponse, hsynResponse, syndromeWork_unbounded h])

theorem hdecResponse_capacityExceeded_or_unbounded (cfg : Config) (v : BitVector) :
    hdecResponse cfg v = .bare .capacityExceeded
      ∨ hdecResponse cfg v = hdecResponse (unbounded cfg) v := by
  cases h : overCapacity cfg v.length with
  | true => exact .inl (hdecResponse_of_overCapacity h)
  | false => exact .inr (by rw [hdecResponse, hdecResponse, syndromeWork_unbounded h])

theorem diffResponse_capacityExceeded_or_unbounded (cfg : Config) (a b : BitVector) :
    diffResponse cfg a b = .bare .capacityExceeded
      ∨ diffResponse cfg a b = diffResponse (unbounded cfg) a b := by
  by_cases h : overCapacity cfg a.length = true ∨ overCapacity cfg b.length = true
  · exact .inl (diffResponse_of_overCapacity h)
  · exact .inr (by simp [diffResponse_eq, h, overCapacity_unbounded_config])

theorem channelError_capacityExceeded_or_unbounded (cfg : Config) (c : Channel) :
    channelError cfg c = some .capacityExceeded
      ∨ channelError cfg c = channelError (unbounded cfg) c := by
  cases h : overCapacity cfg c.bitsIn.length with
  | true => exact .inl (channelError_of_overCapacity h)
  | false => exact .inr (by simp [channelError, h, overCapacity_unbounded_config]; rfl)

/-- Every command is a response that a finite N_MAX only refuses, or a channel command run from the
start. -/
theorem exec_cases_unbounded (i : Instr) :
    (∃ answer : Config → Response, (∀ s, exec i s = .next (s.respond (answer s.config)))
        ∧ ∀ cfg, answer cfg = .bare .capacityExceeded ∨ answer cfg = answer (unbounded cfg))
      ∨ ∃ c : Channel, ∀ s, exec i s = .next (s.startChannel c) := by
  cases i with
  | hparam m =>
    exact .inl ⟨_, exec_hparam m, fun cfg => hparamResponse_capacityExceeded_or_unbounded cfg m⟩
  | henc data =>
    exact .inl ⟨_, exec_henc data, fun cfg => hencResponse_capacityExceeded_or_unbounded cfg data⟩
  | hsyn v =>
    exact .inl ⟨_, exec_hsyn v, fun cfg => hsynResponse_capacityExceeded_or_unbounded cfg v⟩
  | hdec v =>
    exact .inl ⟨_, exec_hdec v, fun cfg => hdecResponse_capacityExceeded_or_unbounded cfg v⟩
  | bsc bits ber => exact .inr ⟨_, exec_bsc bits ber⟩
  | ge bits pGB pBG pG pB => exact .inr ⟨_, exec_ge bits pGB pBG pG pB⟩
  | diff a b =>
    exact .inl ⟨_, exec_diff a b, fun cfg => diffResponse_capacityExceeded_or_unbounded cfg a b⟩

/-- Checks that end alike in both states have the same effect on both. -/
theorem sameEffect_startChannel_of_channelError_eq {c : Channel}
    (h : channelError s.config c = channelError t.config c) (hrnd : s.rnd = t.rnd) :
    SameEffect s t (s.startChannel c) (t.startChannel c) := by
  cases herr : channelError s.config c with
  | some status =>
    rw [State.startChannel_of_error herr, State.startChannel_of_error (h ▸ herr)]
    exact sameEffect_respond hrnd _
  | none =>
    rw [State.startChannel_of_no_error herr, State.startChannel_of_no_error (h ▸ herr)]
    exact sameEffect_transmit hrnd c c.start

/-- Every command answers CapacityExceeded in `s`, or has the same effect in `s` and in `t`, whose
N_MAX is unbounded. -/
theorem exec_capacityExceeded_or_sameEffect (hconfig : t.config = unbounded s.config)
    (hrnd : s.rnd = t.rnd) (i : Instr) :
    exec i s = .next (s.respond (.bare .capacityExceeded))
      ∨ ∃ s' t', exec i s = .next s' ∧ exec i t = .next t' ∧ SameEffect s t s' t' := by
  obtain ⟨answer, hexec, hanswer⟩ | ⟨c, hexec⟩ := exec_cases_unbounded i
  · obtain hover | heq := hanswer s.config
    · exact .inl (by rw [hexec, hover])
    · refine .inr ⟨_, _, hexec s, hexec t, ?_⟩
      rw [hconfig, ← heq]
      exact sameEffect_respond hrnd _
  · obtain hover | heq := channelError_capacityExceeded_or_unbounded s.config c
    · exact .inl (by rw [hexec, State.startChannel_of_error hover])
    · rw [← hconfig] at heq
      exact .inr ⟨_, _, hexec s, hexec t, sameEffect_startChannel_of_channelError_eq heq hrnd⟩

/-- Settles O51: an effect that does not touch the parameters. -/
theorem finiteCapacityOnlyAddsRefusals : Obligations.FiniteCapacityOnlyAddsRefusals := by
  intro i s
  obtain hover | ⟨_, _, hs, ht, given, seq, rnd, rfl, rfl⟩ := exec_capacityExceeded_or_sameEffect
    (s := s) (t := { s with config := unbounded s.config }) rfl rfl i
  · exact .inl hover
  · exact .inr ⟨_, ht, hs⟩

end Sys2Proof.Machine
end
